-- ==== Sys2Proof/Word.lean ====
section
/-! DEFINITION. Word.lean: the machine's one width. Every register, memory cell, operand and address is a byte
(spec/00_scope.md R7 `XLEN`, R9); arithmetic on bytes wraps modulo 256, which is `BitVec` arithmetic. -/

namespace Sys2Proof

/-- A byte, 0..255 (00_scope.md R9). -/
abbrev Byte := BitVec 8

end Sys2Proof
end

