-- ==== Sys2Proof/Config.lean ====
section
/-! DEFINITION. Config.lean: the mnemonics, and the implementation parameters of 00_scope.md R7. A parameter the spec
leaves OPEN is an `opaque` constant with no body; one it calls a configuration field (R8) is a field of `Config`, over
which the statements quantify. -/

namespace Sys2Proof

/-- The twenty mnemonics (00_scope.md R3), in the order of 30_encoding.md R74. -/
inductive Mnemonic where
  | LDA_IMM | LDB_IMM | ADD | ADC | SUB_A_IMM | CMP_A_IMM | DEC_A | PRINTA | JMP | JZ | JNZ | LDA_MEM | STA_MEM
  | PUSH_A | POP_A | PUSH_B | POP_B | CALL | RET | HALT
  deriving DecidableEq, Repr, Inhabited

/-- `OPCODE_MAP`: which byte stands for which mnemonic (30_encoding.md R78). -/
abbrev OpcodeMap := Mnemonic → Byte

/-- Why the host's run loop stopped a batch before its last step (60_exceptions.md R228). -/
inductive BatchStop where
  /-- `PC` stands at the breakpoint; the step is not executed. -/
  | breakpoint
  /-- The step raised, or left raised, the pending watch-hit. -/
  | watchHit
  /-- The core is halted after the step. -/
  | halted
  deriving DecidableEq, Repr

/-- The configuration fields of 00_scope.md R7 and R8. Proofs may not rely on their values. -/
structure Config where
  /-- `OPCODE_MAP` (R78). -/
  opcodeMap : OpcodeMap
  /-- `TRACE_CAP`, the capacity of the trace ring (60_exceptions.md R210). -/
  traceCap : Nat
  /-- `HISTORY_CAP`, the capacity of the host's snapshot stack (60_exceptions.md R223). -/
  historyCap : Nat
  /-- `BATCH_STEPS`, the steps of one host batch (60_exceptions.md R228). -/
  batchSteps : Nat
  /-- `CONST_KEYWORD`, the assembler's constant-definition keyword (30_encoding.md R92). -/
  constKeyword : List Char
  /-- Whether the host pushes a snapshot before a no-op step on a halted core (93_implementation_defined.md U8), at each draw. -/
  snapshotBeforeNoop : Nat → Bool
  /-- Whether the host's run cadence ends at a batch stop (93_implementation_defined.md U9), at each draw. -/
  stopEndsCadence : Nat → BatchStop → Bool

/-- `LDA_MEM_SETS_Z` (44_memory_access.md R155, decision D3): OPEN, so nothing may be proved of its value. Log entry 1. -/
opaque Config.ldaMemSetsZ : Bool

/-- `CONST_KEYWORD` of this hardware's assembler (decision D22): OPEN. Log entry 15. -/
opaque Config.openConstKeyword : List Char

/-- Host behaviour the spec leaves unconstrained (U8, decision D25): a free value. Log entry 12. -/
opaque Config.openSnapshotBeforeNoop : Nat → Bool

/-- Host behaviour the spec leaves unconstrained (U9): a free value. Log entry 13. -/
opaque Config.openStopEndsCadence : Nat → BatchStop → Bool

end Sys2Proof
end

