-- ==== Sys2Proof/Syntax.lean ====
section
/-! DEFINITION. Syntax.lean: the instructions, one constructor per row of spec/opcode_table.json. -/

namespace Sys2Proof

/-- An instruction (00_scope.md R3). An operand is the unsigned byte `k` of format `F2` (30_encoding.md R72, R73); a
mnemonic of format `F1` has none (R71). -/
inductive Instr where
  | ldaImm (k : Byte)
  | ldbImm (k : Byte)
  | add
  | adc
  | subAImm (k : Byte)
  | cmpAImm (k : Byte)
  | decA
  | printA
  | jmp (k : Byte)
  | jz (k : Byte)
  | jnz (k : Byte)
  | ldaMem (k : Byte)
  | staMem (k : Byte)
  | pushA
  | popA
  | pushB
  | popB
  | call (k : Byte)
  | ret
  | halt
  deriving DecidableEq, Repr

end Sys2Proof
end

