-- ==== Sys2Proof/Decode.lean ====
section
/-! DEFINITION. Decode.lean: the opcode map, instruction sizes, the decoder and the encoder (30_encoding.md R70 to R78, R83). The decoder is
one table look-up shared by the engine, the disassembler and the assembler (R78). -/

namespace Sys2Proof

/-- The mnemonics as a list, in the order of R74. -/
def Mnemonic.all : List Mnemonic :=
  [.LDA_IMM, .LDB_IMM, .ADD, .ADC, .SUB_A_IMM, .CMP_A_IMM, .DEC_A, .PRINTA, .JMP, .JZ] ++
  [.JNZ, .LDA_MEM, .STA_MEM, .PUSH_A, .POP_A, .PUSH_B, .POP_B, .CALL, .RET, .HALT]

/-- The default opcode map (R74, decision D1). -/
def defaultOpcodeMap : OpcodeMap
  | .LDA_IMM => 0x01 | .LDB_IMM => 0x02 | .ADD => 0x03 | .ADC => 0x04 | .SUB_A_IMM => 0x05
  | .CMP_A_IMM => 0x06 | .DEC_A => 0x07 | .PRINTA => 0x08 | .JMP => 0x09 | .JZ => 0x0A
  | .JNZ => 0x0B | .LDA_MEM => 0x0C | .STA_MEM => 0x0D | .PUSH_A => 0x0E | .POP_A => 0x0F
  | .PUSH_B => 0x10 | .POP_B => 0x11 | .CALL => 0x12 | .RET => 0x13 | .HALT => 0x14

/-- This hardware's configuration: the defaults of R7, and the open parameters as free values. -/
def defaultConfig : Config where
  opcodeMap := defaultOpcodeMap
  traceCap := 200
  historyCap := 100
  batchSteps := 5
  constKeyword := Config.openConstKeyword
  snapshotBeforeNoop := Config.openSnapshotBeforeNoop
  stopEndsCadence := Config.openStopEndsCadence

/-- The size of a mnemonic's instruction in bytes (R75). -/
def Mnemonic.size : Mnemonic → Nat
  | .LDA_IMM | .LDB_IMM | .SUB_A_IMM | .CMP_A_IMM | .JMP | .JZ | .JNZ | .LDA_MEM | .STA_MEM | .CALL => 2
  | .ADD | .ADC | .DEC_A | .PRINTA | .PUSH_A | .POP_A | .PUSH_B | .POP_B | .RET | .HALT => 1

/-- The instruction of a mnemonic whose operand byte, where it has one, is `k`. -/
def Mnemonic.instr (m : Mnemonic) (k : Byte) : Instr :=
  match m with
  | .LDA_IMM => .ldaImm k
  | .LDB_IMM => .ldbImm k
  | .ADD => .add
  | .ADC => .adc
  | .SUB_A_IMM => .subAImm k
  | .CMP_A_IMM => .cmpAImm k
  | .DEC_A => .decA
  | .PRINTA => .printA
  | .JMP => .jmp k
  | .JZ => .jz k
  | .JNZ => .jnz k
  | .LDA_MEM => .ldaMem k
  | .STA_MEM => .staMem k
  | .PUSH_A => .pushA
  | .POP_A => .popA
  | .PUSH_B => .pushB
  | .POP_B => .popB
  | .CALL => .call k
  | .RET => .ret
  | .HALT => .halt

/-- The mnemonic of an instruction. -/
def Instr.mnemonic : Instr → Mnemonic
  | .ldaImm _ => .LDA_IMM
  | .ldbImm _ => .LDB_IMM
  | .add => .ADD
  | .adc => .ADC
  | .subAImm _ => .SUB_A_IMM
  | .cmpAImm _ => .CMP_A_IMM
  | .decA => .DEC_A
  | .printA => .PRINTA
  | .jmp _ => .JMP
  | .jz _ => .JZ
  | .jnz _ => .JNZ
  | .ldaMem _ => .LDA_MEM
  | .staMem _ => .STA_MEM
  | .pushA => .PUSH_A
  | .popA => .POP_A
  | .pushB => .PUSH_B
  | .popB => .POP_B
  | .call _ => .CALL
  | .ret => .RET
  | .halt => .HALT

/-- The operand byte of an instruction of format `F2`; none for format `F1` (R70). -/
def Instr.operand : Instr → Option Byte
  | .ldaImm k | .ldbImm k | .subAImm k | .cmpAImm k | .jmp k | .jz k | .jnz k | .ldaMem k | .staMem k | .call k => some k
  | .add | .adc | .decA | .printA | .pushA | .popA | .pushB | .popB | .ret | .halt => none

/-- The size of an instruction in bytes (R75, R77). -/
def Instr.size (i : Instr) : Nat := i.mnemonic.size

/-- The mnemonic a byte stands for under a map; none for an unrecognized opcode (R76). -/
def mnemonicOf (m : OpcodeMap) (op : Byte) : Option Mnemonic :=
  Mnemonic.all.find? fun mn => m mn == op

/-- The instruction whose opcode byte is `op` and whose next byte is `k`, which a one-byte instruction does not
contain (R77, R80); none for an unrecognized opcode. Total on all bytes (R83). -/
def decodeOp (m : OpcodeMap) (op k : Byte) : Option Instr :=
  (mnemonicOf m op).map fun mn => mn.instr k

/-- Why a list of bytes does not begin with an instruction. -/
inductive DecodeError where
  /-- There is no byte. -/
  | noBytes
  /-- The first byte is an unrecognized opcode (R76). -/
  | unrecognizedOpcode (op : Byte)
  /-- The list ends before the operand byte of a two-byte instruction. -/
  | operandMissing (mn : Mnemonic)
  deriving DecidableEq, Repr

/-- The instruction that a list of bytes begins with, and the bytes after it. -/
def decodeWith (m : OpcodeMap) : List Byte → Except DecodeError (Instr × List Byte)
  | [] => .error .noBytes
  | op :: rest =>
    match mnemonicOf m op with
    | none => .error (.unrecognizedOpcode op)
    | some mn =>
      if mn.size = 2 then
        match rest with
        | [] => .error (.operandMissing mn)
        | k :: rest' => .ok (mn.instr k, rest')
      else .ok (mn.instr 0, rest)

/-- The decoder under the default map. -/
def decode (bytes : List Byte) : Except DecodeError (Instr × List Byte) :=
  decodeWith defaultOpcodeMap bytes

/-- The bytes of an instruction: its opcode, then its operand where it has one (R71, R72). -/
def encodeWith (m : OpcodeMap) (i : Instr) : List Byte :=
  m i.mnemonic :: i.operand.toList

/-- The encoder under the default map. -/
def encode (i : Instr) : List Byte := encodeWith defaultOpcodeMap i

/-- The bytes of a sequence of instructions, in order (R96 "the concatenation of emitted bytes in program order"). -/
def encodeProgram (m : OpcodeMap) (p : List Instr) : List Byte := p.flatMap (encodeWith m)

/-- The two bytes that a row's `nbits` bits `w` lay out, first byte first; the bits above `nbits` are 0. -/
def tableBytes (nbits w : Nat) : List Byte :=
  [BitVec.ofNat 8 (w % 2 ^ nbits), BitVec.ofNat 8 (w % 2 ^ nbits / 256)]

/-- The instruction the decoder reads from an instruction whose bits are `w`. -/
def decodeTableWord (nbits w : Nat) : Option Instr :=
  match decode (tableBytes nbits w) with
  | .ok (i, _) => some i
  | .error _ => none

end Sys2Proof
end

