-- ==== Sys2Proof/WellFormed.lean ====
section
/-! DEFINITION. WellFormed.lean: what makes an opcode map, an instruction and a decoded record well formed. An operand
is a byte by its type, so every `Instr` is well formed (Laws/Decode.lean proves it); the checks that can fail are those of a map
(30_encoding.md R78) and of a decoded record (R84), which the trace entry shares (60_exceptions.md R211). -/

namespace Sys2Proof

/-- R78: "It is injective: no two mnemonics share a byte." -/
def OpcodeMap.wf (m : OpcodeMap) : Bool :=
  Mnemonic.all.all fun x => Mnemonic.all.all fun y => x == y || m x != m y

/-- An instruction has an operand byte exactly when its size is 2 (R70). -/
def Instr.wf (i : Instr) : Bool := i.operand.isSome == (i.size == 2)

/-- What the disassembler returns for one address (R84): `ins` is none for a raw byte. -/
structure Listing where
  opcode : Byte
  ins : Option Mnemonic
  operand : Option Byte
  size : Nat
  deriving DecidableEq, Repr, Inhabited

/-- The record agrees with the map: its mnemonic is the one its opcode byte stands for. -/
def Listing.insOk (m : OpcodeMap) (l : Listing) : Bool := l.ins == mnemonicOf m l.opcode

/-- The record's size is its mnemonic's, and 1 for a raw byte (R77). -/
def Listing.sizeOk (l : Listing) : Bool :=
  match l.ins with
  | some mn => l.size == mn.size
  | none => l.size == 1

/-- The record has an operand exactly when its size is 2. -/
def Listing.operandOk (l : Listing) : Bool := l.operand.isSome == (l.size == 2)

/-- The record is one that `decode` of some memory can return under the map (R84). -/
def Listing.wf (m : OpcodeMap) (l : Listing) : Bool := l.insOk m && l.sizeOk && l.operandOk

/-- The record of an instruction. -/
def Instr.listing (m : OpcodeMap) (i : Instr) : Listing :=
  { opcode := m i.mnemonic, ins := some i.mnemonic, operand := i.operand, size := i.size }

end Sys2Proof
end

