-- ==== Sys2Proof/Machine/State.lean ====
section
/-! DEFINITION. Machine/State.lean: the machine state of 10_state.md R20, component by component, as plain data, its reset value (R40),
and the reasons a step can stop. -/

namespace Sys2Proof.Machine

/-- The 256 cells as (address, byte) pairs: addresses strictly rising and below 256, and no entry equal to 0, which an unlisted
address reads as (10_state.md R40: `mem` is zero-filled). -/
abbrev Memory := List Host.Cell

/-- The registers and flags a trace entry records (60_exceptions.md R211). -/
structure RegView where
  a : Byte
  b : Byte
  sp : Byte
  z : Bool
  c : Bool
  deriving DecidableEq, Repr, Inhabited

/-- An execution trace entry (60_exceptions.md R211); `ins` is none for an unrecognized opcode. -/
structure ExecEntry where
  pcBefore : Byte
  opcode : Byte
  ins : Option Mnemonic
  operand : Option Byte
  before : RegView
  after : RegView
  pcAfter : Byte
  halt : Bool
  deriving DecidableEq, Repr, Inhabited

/-- A trace entry: of an executed instruction, or the mark of a host restore (60_exceptions.md R214). -/
inductive TraceEntry where
  | exec (e : ExecEntry)
  | rollback
  deriving DecidableEq, Repr, Inhabited

/-- The ghost cause of a halt (10_state.md R33). -/
inductive HaltCause where
  | none
  | haltInstr
  | undefinedOpcode (op : Byte)
  deriving DecidableEq, Repr, Inhabited

/-- The machine state (10_state.md R20): "Nothing else is state of the core." -/
@[ext]
structure State where
  /-- The address of the next byte the engine will fetch (R21). -/
  pc : Byte
  /-- The accumulator (R22). -/
  a : Byte
  /-- The data register (R23). -/
  b : Byte
  /-- The stack pointer (R24). -/
  sp : Byte
  /-- The zero flag (R26). -/
  z : Bool
  /-- The carry flag (R27). -/
  c : Bool
  /-- The memory (20_memory.md R50). -/
  mem : Memory
  /-- The execution engine is in Halted (R29, R30). -/
  halted : Bool
  /-- The output port, oldest byte first (42_output.md R140). -/
  out : List Byte
  /-- The address the most recent `STA_MEM` wrote (R31). -/
  lastWrite : Option Byte
  /-- The trace ring, oldest entry first (60_exceptions.md R210). -/
  trace : List TraceEntry
  /-- `WP`, the host's watchpoint address (R32). -/
  wp : Option Byte
  /-- The pending watch-hit latch (R34). -/
  watchHit : Bool
  /-- The model-only ghost field of R33. -/
  haltCause : HaltCause
  deriving DecidableEq, Repr, Inhabited

/-- The reasons a step stops with a fault: NONE. "Execution never raises errors" (60_exceptions.md R200), and every encoding, address and
operand has a defined result, so the type has no constructor. No fault can be raised, which is neither safe nor unsafe. -/
inductive Fault
  deriving DecidableEq, Repr

/-- The reasons the model gives no meaning. -/
inductive Refusal where
  /-- Raised by an arm of `exec` whose instruction has no meaning yet; no arm raises it. Safe. -/
  | notModelled (mnemonic : String)
  /-- Raised by a host command that steps the core or reads its state before the first `load`, where the state is unspecified
  (10_state.md R41, decision D7, 93_implementation_defined.md U4: "`refuse`: no step and no read"). No step of a loaded core raises
  it. Safe. -/
  | beforeFirstLoad
  /-- Raised by the host command `reset()` where no image has been assembled, so that there is no "last-assembled image" (60_exceptions.md R236)
  to reload. No step raises it. Safe. -/
  | noAssembledImage
  deriving DecidableEq, Repr

/-- The machine right after reset: the state `load` leaves for the empty image at address 0 (10_state.md R40). `wp`, which `load` does
not change, is absent by DESIGN CHOICE (log entry 2). -/
def State.reset : State where
  pc := 0
  a := 0
  b := 0
  sp := 0xFF
  z := false
  c := false
  mem := []
  halted := false
  out := []
  lastWrite := none
  trace := []
  wp := none
  watchHit := false
  haltCause := .none

end Sys2Proof.Machine
end

