-- ==== Sys2Proof/Machine/Ops.lean ====
section
/-! DEFINITION. Machine/Ops.lean: the named operations over memory and registers, the stack (45_stack.md R165), the output port
(42_output.md R140), the watchpoint comparator (44_memory_access.md R157) and entry to Halted, which plays the part of
exception entry (60_exceptions.md R203). The core has no exception and no return from one (R200, R204). -/

namespace Sys2Proof.Machine

/-- What a cell that memory does not list reads as (10_state.md R40: memory is zero-filled). -/
def unlistedByte : Byte := 0

/-- The byte at an address (20_memory.md R52). -/
def Memory.read (m : Memory) (addr : Byte) : Byte :=
  match m with
  | [] => unlistedByte
  | (k, v) :: rest => if k = addr.toNat then v else Memory.read rest addr

/-- An entry in front of a list, left out where it says what an unlisted address reads as. -/
def Memory.cons (key : Nat) (v : Byte) (m : Memory) : Memory :=
  if v = unlistedByte then m else (key, v) :: m

/-- Write of one cell, by its number, keeping the canonical form. -/
def Memory.put (m : Memory) (key : Nat) (v : Byte) : Memory :=
  match m with
  | [] => Memory.cons key v []
  | (k, w) :: rest =>
    if key < k then Memory.cons key v ((k, w) :: rest)
    else if key = k then Memory.cons key v rest
    else (k, w) :: Memory.put rest key v

/-- Write of one cell (20_memory.md R53): it "changes no other cell". -/
def Memory.write (m : Memory) (addr v : Byte) : Memory := Memory.put m addr.toNat v

/-- The canonical form, from a least key on. -/
def Memory.wfFrom (lo : Nat) (m : Memory) : Bool :=
  match m with
  | [] => true
  | (k, v) :: rest => decide (lo ≤ k) && decide (k < 256) && v != unlistedByte && Memory.wfFrom (k + 1) rest

/-- The canonical form: addresses strictly rising and below 256, no entry equal to what an unlisted address reads as. -/
def Memory.wf (m : Memory) : Bool := Memory.wfFrom 0 m

/-- An address computed outside 0..255 is "reduced mod 256 before use" (20_memory.md R50). -/
def wrapAddr (n : Nat) : Byte := BitVec.ofNat 8 n

/-- Register and flag writes. -/
def State.setPc (s : State) (v : Byte) : State := { s with pc := v }
def State.setA (s : State) (v : Byte) : State := { s with a := v }
def State.setB (s : State) (v : Byte) : State := { s with b := v }
def State.setSp (s : State) (v : Byte) : State := { s with sp := v }
def State.setZ (s : State) (v : Bool) : State := { s with z := v }
def State.setC (s : State) (v : Bool) : State := { s with c := v }
def State.setMem (s : State) (m : Memory) : State := { s with mem := m }
def State.setTrace (s : State) (t : List TraceEntry) : State := { s with trace := t }
def State.setWp (s : State) (w : Option Byte) : State := { s with wp := w }
def State.setWatchHit (s : State) (w : Bool) : State := { s with watchHit := w }

/-- `PC <- (PC + n) mod 256`: the fetch of an instruction of `n` bytes (10_state.md R21, 30_encoding.md R80). -/
def State.advance (s : State) (n : Nat) : State := s.setPc (s.pc + wrapAddr n)

/-- `MemRead(addr, 1)` (00_scope.md R10). -/
def State.load (s : State) (addr : Byte) : Byte := s.mem.read addr

/-- `MemWrite(addr, 1, v)` (00_scope.md R10); it touches neither `lastWrite` nor `watchHit` (20_memory.md R53). -/
def State.store (s : State) (addr v : Byte) : State := s.setMem (s.mem.write addr v)

/-- `Out(v)` (00_scope.md R10). -/
def State.emit (s : State) (v : Byte) : State := { s with out := s.out ++ [v] }

/-- What `STA_MEM` does beside its write: `lastWrite <- k`, and the watchpoint comparator (44_memory_access.md R156, R157). -/
def State.recordStore (s : State) (k : Byte) : State :=
  { s with lastWrite := some k, watchHit := s.watchHit || s.wp == some k }

/-- `Halt(cause)` (00_scope.md R10): entry to Halted (60_exceptions.md R203). -/
def State.haltWith (s : State) (cause : HaltCause) : State := { s with halted := true, haltCause := cause }

/-- The cell a push writes: the one `SP` points at (45_stack.md R165). -/
def State.pushAddr (s : State) : Byte := s.sp

/-- The cell a pop reads: the one `SP` points at once incremented (45_stack.md R165). -/
def State.popAddr (s : State) : Byte := s.sp + 1

/-- A push "writes the cell `SP` points at, then decrements `SP`" (45_stack.md R165). -/
def State.push (s : State) (v : Byte) : State := (s.store s.pushAddr v).setSp (s.sp - 1)

/-- The byte a pop reads. -/
def State.popByte (s : State) : Byte := s.load s.popAddr

/-- A pop "increments `SP`, then reads the cell `SP` now points at" (45_stack.md R165); this is its effect on `SP`. -/
def State.popSp (s : State) : State := s.setSp s.popAddr

/-- The registers and flags as a trace entry records them (60_exceptions.md R211). -/
def State.view (s : State) : RegView := { a := s.a, b := s.b, sp := s.sp, z := s.z, c := s.c }

end Sys2Proof.Machine
end

