-- ==== Sys2Proof/Machine/Flags.lean ====
section
/-! DEFINITION. Machine/Flags.lean: every flag computation of the spec (10_state.md R26, R27; 41_arithmetic.md R125): a zero flag and a
carry of additions, and no other. -/

namespace Sys2Proof.Machine

/-- R26: 1 "if the 8-bit value named in its rule is 0", and 0 otherwise. -/
def zeroFlag (v : Byte) : Bool := v == 0

/-- R27: 1 "when the unreduced sum exceeds 255", and 0 otherwise. -/
def carryFlag (sum : Nat) : Bool := decide (255 < sum)

/-- A bit as an integer, 0 or 1 (00_scope.md R9). -/
def bitNat (b : Bool) : Nat := if b then 1 else 0

/-- The unreduced integer sum of an addition with carry in (41_arithmetic.md R120, R121). -/
def addSum (a b : Byte) (cin : Bool) : Nat := a.toNat + b.toNat + bitNat cin

/-- "arithmetic wraps silently": a sum reduced mod 256 (41_arithmetic.md R125). -/
def reduceSum (sum : Nat) : Byte := BitVec.ofNat 8 sum

/-- `Z <- (v = 0) ? 1 : 0`. -/
def State.zeroFrom (s : State) (v : Byte) : State := s.setZ (zeroFlag v)

/-- The common body of `ADD` and `ADC` (41_arithmetic.md R120, R121). -/
def State.addWith (s : State) (cin : Bool) : State :=
  let sum := addSum s.a s.b cin
  ((s.setC (carryFlag sum)).setA (reduceSum sum)).zeroFrom (reduceSum sum)

end Sys2Proof.Machine
end

