-- ==== Sys2Proof/Machine/Operands.lean ====
section
/-! DEFINITION. Machine/Operands.lean: the addressing modes of 30_encoding.md R79 and the memory accesses of 20_memory.md R54. -/

namespace Sys2Proof.Machine

/-- Immediate mode: "value = `k`", with no extension (30_encoding.md R73, R79). -/
def immValue (k : Byte) : Byte := k

/-- Absolute mode: "EA = `k`" (30_encoding.md R79). -/
def absAddr (k : Byte) : Byte := k

/-- Absolute target mode: "target = `k`" (30_encoding.md R79, 43_jumps.md R148). -/
def absTarget (k : Byte) : Byte := k

/-- Where a jump leaves `PC`: at its target when taken, and at the fall-through address otherwise (43_jumps.md R146, R147). -/
def branchPc (taken : Bool) (target next : Byte) : Byte := if taken then target else next

/-- The address an instruction stores to, and the byte it stores there, in the state its body begins in (20_memory.md R54). -/
def storeOf (i : Instr) (s : State) : Option (Byte × Byte) :=
  match i with
  | .staMem k => some (absAddr k, s.a)
  | .pushA => some (s.pushAddr, s.a)
  | .pushB => some (s.pushAddr, s.b)
  | .call _ => some (s.pushAddr, s.pc)
  | .ldaImm _ | .ldbImm _ | .add | .adc | .subAImm _ | .cmpAImm _ | .decA | .printA | .jmp _ | .jz _ | .jnz _
  | .ldaMem _ | .popA | .popB | .ret | .halt => none

/-- The address an instruction stores to, in the state its body begins in. -/
def storeAddr (i : Instr) (s : State) : Option Byte := (storeOf i s).map Prod.fst

/-- The data address an instruction reads, in the state its body begins in (20_memory.md R54). -/
def loadAddr (i : Instr) (s : State) : Option Byte :=
  match i with
  | .ldaMem k => some (absAddr k)
  | .popA | .popB | .ret => some s.popAddr
  | .ldaImm _ | .ldbImm _ | .add | .adc | .subAImm _ | .cmpAImm _ | .decA | .printA | .jmp _ | .jz _ | .jnz _
  | .staMem _ | .pushA | .pushB | .call _ | .halt => none

end Sys2Proof.Machine
end

