-- ==== Sys2Proof/Machine/Arithmetic.lean ====
section
/-! DEFINITION. Machine/Arithmetic.lean: arithmetic (41_arithmetic.md). -/

namespace Sys2Proof.Machine

/-- `ADD` (R120): "The old `C` is ignored and always overwritten." -/
def execAdd (s : State) : Host.Outcome State Fault Refusal := .next (s.addWith false)

/-- `ADC` (R121): carry in and carry out. -/
def execAdc (s : State) : Host.Outcome State Fault Refusal := .next (s.addWith s.c)

/-- `SUB_A_IMM k` (R122): no borrow, `C` unchanged. -/
def execSubAImm (k : Byte) (s : State) : Host.Outcome State Fault Refusal :=
  .next ((s.setA (s.a - immValue k)).zeroFrom (s.a - immValue k))

/-- `CMP_A_IMM k` (R123): the difference is discarded. -/
def execCmpAImm (k : Byte) (s : State) : Host.Outcome State Fault Refusal :=
  .next (s.zeroFrom (s.a - immValue k))

/-- `DEC_A` (R124). -/
def execDecA (s : State) : Host.Outcome State Fault Refusal :=
  .next ((s.setA (s.a - 1)).zeroFrom (s.a - 1))

end Sys2Proof.Machine
end

