-- ==== Sys2Proof/Machine/CallReturn.lean ====
section
/-! DEFINITION. Machine/CallReturn.lean: call and return (46_call_return.md). -/

namespace Sys2Proof.Machine

/-- `CALL k` (R180): push "the post-operand PC", then jump. -/
def execCall (k : Byte) (s : State) : Host.Outcome State Fault Refusal :=
  .next ((s.push s.pc).setPc (absTarget k))

/-- `RET` (R181): it does not write `Z`. -/
def execRet (s : State) : Host.Outcome State Fault Refusal := .next (s.popSp.setPc s.popByte)

end Sys2Proof.Machine
end

