-- ==== Sys2Proof/Machine/Halt.lean ====
section
/-! DEFINITION. Machine/Halt.lean: `HALT` and unrecognized opcodes (47_halt.md). -/

namespace Sys2Proof.Machine

/-- `HALT` (R190). -/
def execHalt (s : State) : Host.Outcome State Fault Refusal := .next (s.haltWith .haltInstr)

/-- What an unrecognized opcode `op` does in place of an instruction's body (R192): it halts, and raises no error. -/
def execUnrecognized (op : Byte) (s : State) : Host.Outcome State Fault Refusal :=
  .next (s.haltWith (.undefinedOpcode op))

end Sys2Proof.Machine
end

