-- ==== Sys2Proof/Machine/Immediate.lean ====
section
/-! DEFINITION. Machine/Immediate.lean: the immediate loads (40_immediate_loads.md). -/

namespace Sys2Proof.Machine

/-- `LDA_IMM k` (R110). -/
def execLdaImm (k : Byte) (s : State) : Host.Outcome State Fault Refusal :=
  .next ((s.setA (immValue k)).zeroFrom (immValue k))

/-- `LDB_IMM k` (R111): `Z` is written "from `B`, not from `A`". -/
def execLdbImm (k : Byte) (s : State) : Host.Outcome State Fault Refusal :=
  .next ((s.setB (immValue k)).zeroFrom (immValue k))

end Sys2Proof.Machine
end

