-- ==== Sys2Proof/Machine/Jumps.lean ====
section
/-! DEFINITION. Machine/Jumps.lean: jumps (43_jumps.md). A body begins with `PC` at the fall-through address. -/

namespace Sys2Proof.Machine

/-- `JMP k` (R145). -/
def execJmp (k : Byte) (s : State) : Host.Outcome State Fault Refusal := .next (s.setPc (absTarget k))

/-- `JZ k` (R146). -/
def execJz (k : Byte) (s : State) : Host.Outcome State Fault Refusal :=
  .next (s.setPc (branchPc s.z (absTarget k) s.pc))

/-- `JNZ k` (R147). -/
def execJnz (k : Byte) (s : State) : Host.Outcome State Fault Refusal :=
  .next (s.setPc (branchPc (!s.z) (absTarget k) s.pc))

end Sys2Proof.Machine
end

