-- ==== Sys2Proof/Machine/MemoryAccess.lean ====
section
/-! DEFINITION. Machine/MemoryAccess.lean: load and store absolute (44_memory_access.md). -/

namespace Sys2Proof.Machine

/-- `LDA_MEM k` (R155): `Z` is written exactly when the open parameter `LDA_MEM_SETS_Z` is true (log entry 1). -/
def execLdaMem (k : Byte) (s : State) : Host.Outcome State Fault Refusal :=
  .next ((s.setA (s.load (absAddr k))).setZ (if Config.ldaMemSetsZ then zeroFlag (s.load (absAddr k)) else s.z))

/-- `STA_MEM k` (R156), with the watchpoint comparator (R157). -/
def execStaMem (k : Byte) (s : State) : Host.Outcome State Fault Refusal :=
  .next ((s.store (absAddr k) s.a).recordStore (absAddr k))

end Sys2Proof.Machine
end

