-- ==== Sys2Proof/Machine/Output.lean ====
section
/-! DEFINITION. Machine/Output.lean: the output instruction (42_output.md). -/

namespace Sys2Proof.Machine

/-- `PRINTA` (R142): `Out(A)`. -/
def execPrintA (s : State) : Host.Outcome State Fault Refusal := .next (s.emit s.a)

end Sys2Proof.Machine
end

