-- ==== Sys2Proof/Machine/Stack.lean ====
section
/-! DEFINITION. Machine/Stack.lean: push and pop (45_stack.md). -/

namespace Sys2Proof.Machine

/-- `PUSH_A` (R166). -/
def execPushA (s : State) : Host.Outcome State Fault Refusal := .next (s.push s.a)

/-- `POP_A` (R167). -/
def execPopA (s : State) : Host.Outcome State Fault Refusal :=
  .next ((s.popSp.setA s.popByte).zeroFrom s.popByte)

/-- `PUSH_B` (R168). -/
def execPushB (s : State) : Host.Outcome State Fault Refusal := .next (s.push s.b)

/-- `POP_B` (R169): `Z` is written from `B`. -/
def execPopB (s : State) : Host.Outcome State Fault Refusal :=
  .next ((s.popSp.setB s.popByte).zeroFrom s.popByte)

end Sys2Proof.Machine
end

