-- ==== Sys2Proof/Machine/Dispatch.lean ====
section
/-! DEFINITION. Machine/Dispatch.lean: `Execute(ins, k)` of 30_encoding.md R80, one arm per instruction. -/

namespace Sys2Proof.Machine

/-- The body of an instruction, run in the state its fetch leaves: `PC` is the address of the next sequential instruction (R80). -/
def exec (i : Instr) (s : State) : Host.Outcome State Fault Refusal :=
  match i with
  | .ldaImm k => Sys2Proof.Machine.execLdaImm k s
  | .ldbImm k => Sys2Proof.Machine.execLdbImm k s
  | .add => Sys2Proof.Machine.execAdd s
  | .adc => Sys2Proof.Machine.execAdc s
  | .subAImm k => Sys2Proof.Machine.execSubAImm k s
  | .cmpAImm k => Sys2Proof.Machine.execCmpAImm k s
  | .decA => Sys2Proof.Machine.execDecA s
  | .printA => Sys2Proof.Machine.execPrintA s
  | .jmp k => Sys2Proof.Machine.execJmp k s
  | .jz k => Sys2Proof.Machine.execJz k s
  | .jnz k => Sys2Proof.Machine.execJnz k s
  | .ldaMem k => Sys2Proof.Machine.execLdaMem k s
  | .staMem k => Sys2Proof.Machine.execStaMem k s
  | .pushA => Sys2Proof.Machine.execPushA s
  | .popA => Sys2Proof.Machine.execPopA s
  | .pushB => Sys2Proof.Machine.execPushB s
  | .popB => Sys2Proof.Machine.execPopB s
  | .call k => Sys2Proof.Machine.execCall k s
  | .ret => Sys2Proof.Machine.execRet s
  | .halt => Sys2Proof.Machine.execHalt s

end Sys2Proof.Machine
end

