-- ==== Sys2Proof/Machine/Trace.lean ====
section
/-! DEFINITION. Machine/Trace.lean: the trace capture (60_exceptions.md R210 to R214). -/

namespace Sys2Proof.Machine

/-- "if length(trace) > TRACE_CAP: trace <- last TRACE_CAP entries of trace" (R212): the oldest are discarded first. -/
def trimTrace (cap : Nat) (t : List TraceEntry) : List TraceEntry := t.drop (t.length - cap)

/-- One entry appended to a ring of the given capacity. -/
def State.appendTrace (s : State) (cap : Nat) (e : TraceEntry) : State := s.setTrace (trimTrace cap (s.trace ++ [e]))

/-- The execution entry of a step from `pre` to `post` (R211, R212): `halt = halted`, since a step executes only from `halted = 0`. -/
def execEntry (pre : State) (op : Byte) (ins : Option Mnemonic) (operand : Option Byte) (post : State) : ExecEntry where
  pcBefore := pre.pc
  opcode := op
  ins := ins
  operand := operand
  before := pre.view
  after := post.view
  pcAfter := post.pc
  halt := post.halted

/-- `AppendTrace(pre, op, ins, k)` (R212). -/
def recordStep (cap : Nat) (pre : State) (op : Byte) (ins : Option Mnemonic) (operand : Option Byte) (post : State) : State :=
  post.appendTrace cap (.exec (execEntry pre op ins operand post))

/-- What an entry says was decoded, as the disassembler's record. -/
def ExecEntry.listing (e : ExecEntry) : Listing where
  opcode := e.opcode
  ins := e.ins
  operand := e.operand
  size := (e.ins.map Mnemonic.size).getD 1

end Sys2Proof.Machine
end

