-- ==== Sys2Proof/Machine/Engine.lean ====
section
/-! DEFINITION. Machine/Engine.lean: the execution engine's step (30_encoding.md R80 to R82), for any configuration. -/

namespace Sys2Proof.Machine

/-- What is done to the next state, where there is one. -/
def mapNext (f : State → State) (o : Host.Outcome State Fault Refusal) : Host.Outcome State Fault Refusal :=
  match o with
  | .next s => .next (f s)
  | .fault r => .fault r
  | .refused r => .refused r

/-- `fetch8()` (00_scope.md R10): the byte at `PC`, and the state with `PC` advanced by 1 mod 256. -/
def State.fetch8 (s : State) : Byte × State := (s.load s.pc, s.advance 1)

/-- `Step()` (R80), line by line, and on a halted core the no-op of R81. The values `pre` of R80 are those of `s`. -/
def engineStep (cfg : Config) (s : State) : Host.Outcome State Fault Refusal :=
  if s.halted then .next s
  else
    let op := s.fetch8
    match mnemonicOf cfg.opcodeMap op.1 with
    | none => mapNext (recordStep cfg.traceCap s op.1 none none) (execUnrecognized op.1 op.2)
    | some mn =>
      if mn.size = 2 then
        let k := op.2.fetch8
        mapNext (recordStep cfg.traceCap s op.1 (some mn) (some k.1)) (exec (mn.instr k.1) k.2)
      else mapNext (recordStep cfg.traceCap s op.1 (some mn) none) (exec (mn.instr 0) op.2)

/-- The instruction that the bytes at `PC` are: the opcode at `PC`, and for a two-byte instruction the operand at the address after it, mod 256
(20_memory.md R56). None for an unrecognized opcode. -/
def fetchInstr (m : OpcodeMap) (s : State) : Option Instr := decodeOp m (s.load s.pc) (s.load (s.pc + 1))

/-- `n` steps of the engine. -/
def engineRun (cfg : Config) (n : Nat) (s : State) : Host.Outcome State Fault Refusal :=
  match n with
  | 0 => .next s
  | k + 1 =>
    match engineStep cfg s with
    | .next t => engineRun cfg k t
    | .fault r => .fault r
    | .refused r => .refused r

/-- The state in which the engine's next fetch reads the given two bytes: they stand at `PC` and at the address after it, and the engine is
not in Halted. -/
def placeAtPc (s : State) (b0 b1 : Byte) : State :=
  { (s.store s.pc b0).store (s.pc + 1) b1 with halted := false, haltCause := .none }

end Sys2Proof.Machine
end

