-- ==== Sys2Proof/Machine/Step.lean ====
section
/-! DEFINITION. Machine/Step.lean: the step of this hardware, which is the engine's step under the default configuration. -/

namespace Sys2Proof.Machine

/-- One `step()` (30_encoding.md R80, R81). -/
def step (s : State) : Host.Outcome State Fault Refusal := engineStep defaultConfig s

/-- `s` with an instruction's bits stored where `step` fetches its next instruction. It leaves Halted, from which no step fetches. -/
def State.withFetchWord (s : State) (nbits w : Nat) : State :=
  placeAtPc s (BitVec.ofNat 8 (w % 2 ^ nbits)) (BitVec.ofNat 8 (w % 2 ^ nbits / 256))

end Sys2Proof.Machine
end

