-- ==== Sys2Proof/Machine/Text.lean ====
section
/-! DEFINITION. Machine/Text.lean: the numerals the host parses (30_encoding.md R95, 60_exceptions.md R225, R226) and the texts it shows
(30_encoding.md R85, 42_output.md R141, 60_exceptions.md R213, R214). Text is a list of characters, and no rule of the core reads one. -/

namespace Sys2Proof.Machine

/-- The mnemonic's name (00_scope.md R3). -/
def mnemonicName : Mnemonic → List Char
  | .LDA_IMM => "LDA_IMM".toList
  | .LDB_IMM => "LDB_IMM".toList
  | .ADD => "ADD".toList
  | .ADC => "ADC".toList
  | .SUB_A_IMM => "SUB_A_IMM".toList
  | .CMP_A_IMM => "CMP_A_IMM".toList
  | .DEC_A => "DEC_A".toList
  | .PRINTA => "PRINTA".toList
  | .JMP => "JMP".toList
  | .JZ => "JZ".toList
  | .JNZ => "JNZ".toList
  | .LDA_MEM => "LDA_MEM".toList
  | .STA_MEM => "STA_MEM".toList
  | .PUSH_A => "PUSH_A".toList
  | .POP_A => "POP_A".toList
  | .PUSH_B => "PUSH_B".toList
  | .POP_B => "POP_B".toList
  | .CALL => "CALL".toList
  | .RET => "RET".toList
  | .HALT => "HALT".toList

/-- The digits in the order of their values, hexadecimal ones in upper case (30_encoding.md R85). -/
def digitTable : List Char := "0123456789ABCDEF".toList

/-- A letter in upper case, for the case-insensitive match of mnemonics (30_encoding.md R91) and for digits. -/
def upperChar (c : Char) : Char := if 97 ≤ c.toNat ∧ c.toNat ≤ 122 then Char.ofNat (c.toNat - 32) else c

/-- The value of a digit of a base, where the character is one: its place among the base's digits. A hexadecimal digit may be in either letter case
(log entry 14). -/
def digitValue (base : Nat) (c : Char) : Option Nat := (digitTable.take base).idxOf? (upperChar c)

/-- The value of a run of digits read after a value already read. -/
def digitsFrom (base acc : Nat) (t : List Char) : Option Nat :=
  match t with
  | [] => some acc
  | c :: rest =>
    match digitValue base c with
    | some v => digitsFrom base (acc * base + v) rest
    | none => none

/-- "a literal decimal or `0x`-hex number" (30_encoding.md R95). No sign, and no upper-case `0X` (93_implementation_defined.md U11). -/
def parseNumber (t : List Char) : Option Nat :=
  match t with
  | [] => none
  | '0' :: 'x' :: ds => if ds.isEmpty then none else digitsFrom 16 0 ds
  | c :: ds => digitsFrom 10 0 (c :: ds)

/-- The digit of a value below 16. -/
def digitChar (n : Nat) : Char := digitTable.getD n '0'

/-- `0xHH`: "exactly two upper-case digits" (30_encoding.md R85). -/
def hexText (v : Byte) : List Char := ['0', 'x', digitChar (v.toNat / 16), digitChar (v.toNat % 16)]

/-- The "shortest base-10 numeral" of an output entry (42_output.md R141). -/
def decimalText (v : Byte) : List Char :=
  (if 100 ≤ v.toNat then [digitChar (v.toNat / 100)] else []) ++
    ((if 10 ≤ v.toNat then [digitChar (v.toNat / 10 % 10)] else []) ++ [digitChar (v.toNat % 10)])

/-- A bit as text. -/
def bitText (b : Bool) : List Char := if b then ['1'] else ['0']

/-- What was decoded, as text: `MNEMONIC`, `MNEMONIC 0xHH`, or `DB 0xHH` for a raw byte (30_encoding.md R85). -/
def listingText (l : Listing) : List Char :=
  match l.ins with
  | none => "DB ".toList ++ hexText l.opcode
  | some mn =>
    match l.operand with
    | none => mnemonicName mn
    | some k => mnemonicName mn ++ ' ' :: hexText k

/-- `0xaa->0xaa'`, the value before and the value after. -/
def changeText (x y : List Char) : List Char := x ++ "->".toList ++ y

/-- The text of an execution entry (60_exceptions.md R213). -/
def entryText (e : ExecEntry) : List Char :=
  hexText e.pcBefore ++ ": ".toList ++ listingText e.listing ++
  " | A ".toList ++ changeText (hexText e.before.a) (hexText e.after.a) ++
  " B ".toList ++ changeText (hexText e.before.b) (hexText e.after.b) ++
  " SP ".toList ++ changeText (hexText e.before.sp) (hexText e.after.sp) ++
  " Z ".toList ++ changeText (bitText e.before.z) (bitText e.after.z) ++
  " C ".toList ++ changeText (bitText e.before.c) (bitText e.after.c) ++
  " | PC->".toList ++ hexText e.pcAfter ++ (if e.halt then " HALT".toList else [])

/-- The text of a trace entry (60_exceptions.md R213, R214). -/
def traceText : TraceEntry → List Char
  | .exec e => entryText e
  | .rollback => "<< step back".toList

end Sys2Proof.Machine
end

