-- ==== Sys2Proof/Machine/Assembler.lean ====
section
/-! DEFINITION. Machine/Assembler.lean: the two-pass assembler's source syntax and errors (30_encoding.md R90 to R101). It is host software; it is
here because the spec gives its rules, and no rule of the core reads it. -/

namespace Sys2Proof.Machine

/-- The assembly-time errors (R98). -/
inductive AsmErrorKind where
  | duplicateLabel
  | duplicateConstant
  | invalidConstantValue
  | unknownInstruction
  | missingOperand
  | unknownLabel
  /-- Listed by the source, which gives it no cause (93_implementation_defined.md U6): never raised. -/
  | unknownOpcode
  /-- Tokens an instruction line may not have (R94, decision D30). The source gives this error no name: log entry 16. -/
  | extraTokens
  deriving DecidableEq, Repr

/-- An error "carries a 1-based source line number and a message" (R98). The message is the token it is about: log entry 16. -/
structure AsmError where
  line : Nat
  kind : AsmErrorKind
  message : List Char
  deriving DecidableEq, Repr

/-- What separates tokens: white space, and commas, which "are treated as whitespace" (R90). -/
def isSeparator (c : Char) : Bool := c == ' ' || c == '\t' || c == '\r' || c == ','

/-- The lines of a source text (R90). What ends a line is the model's choice: the newline character, and nothing else (DESIGN CHOICE, log entry 14). -/
def splitLines (t : List Char) : List (List Char) :=
  match t with
  | [] => [[]]
  | c :: rest =>
    if c = '\n' then [] :: splitLines rest
    else
      match splitLines rest with
      | [] => [[c]]
      | l :: ls => (c :: l) :: ls

/-- The tokens of a text, after a token's first characters `cur` in reverse. -/
def tokensFrom (cur t : List Char) : List (List Char) :=
  match t with
  | [] => if cur.isEmpty then [] else [cur.reverse]
  | c :: rest =>
    if isSeparator c then
      if cur.isEmpty then tokensFrom [] rest else cur.reverse :: tokensFrom [] rest
    else tokensFrom (c :: cur) rest

/-- The tokens of a line: a comment "begin[s] at `;` and run[s] to end of line" and is removed (R90). -/
def lineTokens (l : List Char) : List (List Char) := tokensFrom [] (l.takeWhile (· != ';'))

/-- A letter or an underscore. -/
def isIdentStart (c : Char) : Bool :=
  let n := c.toNat
  (65 ≤ n && n ≤ 90) || (97 ≤ n && n ≤ 122) || n == 95

/-- An identifier: a letter or underscore, then letters, digits and underscores (log entry 14). -/
def isIdentifier (t : List Char) : Bool :=
  match t with
  | [] => false
  | c :: rest => isIdentStart c && rest.all fun d => isIdentStart d || (digitValue 10 d).isSome

/-- The name a token `identifier:` defines (R93). -/
def labelName (t : List Char) : Option (List Char) :=
  if t.getLast? = some ':' && isIdentifier t.dropLast then some t.dropLast else none

/-- "matched case-insensitively" (R91). -/
def mnemonicOfName (t : List Char) : Option Mnemonic :=
  Mnemonic.all.find? fun mn => mnemonicName mn == t.map upperChar

/-- A source line by its form (R90, R92 to R94). -/
inductive SourceLine where
  | empty
  | constant (name value : List Char)
  | label (name : List Char)
  | instruction (head : List Char) (args : List (List Char))
  deriving DecidableEq, Repr

/-- The form of a line. A constant definition has the three tokens of its pattern (R92); a label stands alone (R93, decision D24). -/
def classify (keyword : List Char) (toks : List (List Char)) : SourceLine :=
  match toks with
  | [] => .empty
  | [t] =>
    match labelName t with
    | some n => .label n
    | none => .instruction t []
  | [t, kw, v] => if kw = keyword then .constant t v else .instruction t [kw, v]
  | t :: args => .instruction t args

/-- Lines with their numbers, from a first number on. -/
def numberFrom (n : Nat) (ls : List SourceLine) : List (Nat × SourceLine) :=
  match ls with
  | [] => []
  | l :: rest => (n, l) :: numberFrom (n + 1) rest

/-- The numbered lines of a source text: "the source's error messages number them from 1" (R90). -/
def sourceLines (keyword src : List Char) : List (Nat × SourceLine) :=
  numberFrom 1 ((splitLines src).map fun l => classify keyword (lineTokens l))

/-- A map from names to bytes. -/
abbrev Symbols := List (List Char × Byte)

/-- The constant pass (R96): it "records every constant definition". -/
def constantPass (ls : List (Nat × SourceLine)) (cs : Symbols) : Except AsmError Symbols :=
  match ls with
  | [] => .ok cs
  | (n, .constant name value) :: rest =>
    if (cs.lookup name).isSome then .error { line := n, kind := .duplicateConstant, message := name }
    else
      match parseNumber value with
      | none => .error { line := n, kind := .invalidConstantValue, message := value }
      | some v => constantPass rest (cs ++ [(name, wrapAddr v)])
  | (_, .empty) :: rest => constantPass rest cs
  | (_, .label _) :: rest => constantPass rest cs
  | (_, .instruction _ _) :: rest => constantPass rest cs

/-- The label/size pass (R96), with its location counter. A label is the counter "masked to 8 bits" (R93, R101). -/
def labelPass (ls : List (Nat × SourceLine)) (loc : Nat) (labels : Symbols) : Except AsmError Symbols :=
  match ls with
  | [] => .ok labels
  | (n, .label name) :: rest =>
    if (labels.lookup name).isSome then .error { line := n, kind := .duplicateLabel, message := name }
    else labelPass rest loc (labels ++ [(name, wrapAddr loc)])
  | (n, .instruction head _) :: rest =>
    match mnemonicOfName head with
    | none => .error { line := n, kind := .unknownInstruction, message := head }
    | some mn => labelPass rest (loc + mn.size) labels
  | (_, .empty) :: rest => labelPass rest loc labels
  | (_, .constant _ _) :: rest => labelPass rest loc labels

/-- An operand token resolved "in this order": a literal, a constant, a label (R95). The value is masked to 8 bits. -/
def resolveOperand (cs labels : Symbols) (t : List Char) : Option Byte :=
  match parseNumber t with
  | some v => some (wrapAddr v)
  | none =>
    match cs.lookup t with
    | some v => some v
    | none => labels.lookup t

/-- The instruction of an instruction line (R94). -/
def instructionOfLine (cs labels : Symbols) (n : Nat) (head : List Char) (args : List (List Char)) : Except AsmError Instr :=
  match mnemonicOfName head with
  | none => .error { line := n, kind := .unknownInstruction, message := head }
  | some mn =>
    match args with
    | [] => if mn.size = 2 then .error { line := n, kind := .missingOperand, message := head } else .ok (mn.instr 0)
    | [t] =>
      if mn.size = 2 then
        match resolveOperand cs labels t with
        | some v => .ok (mn.instr v)
        | none => .error { line := n, kind := .unknownLabel, message := t }
      else .error { line := n, kind := .extraTokens, message := t }
    | _ :: t :: _ => .error { line := n, kind := .extraTokens, message := t }

/-- The emission pass (R96), as instructions. -/
def emissionPass (cs labels : Symbols) (ls : List (Nat × SourceLine)) : Except AsmError (List Instr) :=
  match ls with
  | [] => .ok []
  | (n, .instruction head args) :: rest =>
    match instructionOfLine cs labels n head args with
    | .error e => .error e
    | .ok i =>
      match emissionPass cs labels rest with
      | .error e => .error e
      | .ok p => .ok (i :: p)
  | (_, .empty) :: rest => emissionPass cs labels rest
  | (_, .constant _ _) :: rest => emissionPass cs labels rest
  | (_, .label _) :: rest => emissionPass cs labels rest

/-- The three passes over the tokenised lines (R96), giving the program's instructions. -/
def assembleLines (ls : List (Nat × SourceLine)) : Except AsmError (List Instr) :=
  match constantPass ls [] with
  | .error e => .error e
  | .ok cs =>
    match labelPass ls 0 [] with
    | .error e => .error e
    | .ok labels => emissionPass cs labels ls

/-- `assemble`: "a pure function of source text" (R97), giving an image or an error. -/
def assemble (cfg : Config) (src : List Char) : Except AsmError (List Byte) :=
  match assembleLines (sourceLines cfg.constKeyword src) with
  | .error e => .error e
  | .ok p => .ok (encodeProgram cfg.opcodeMap p)

end Sys2Proof.Machine
end

