-- ==== Sys2Proof/Machine/Disassembler.lean ====
section
/-! DEFINITION. Machine/Disassembler.lean: the host's read-only decoder (30_encoding.md R84, R86). -/

namespace Sys2Proof.Machine

/-- `decode(memory, address)` (R84). It never fails: a byte that is no opcode is a raw byte of size 1. -/
def disassembleAt (m : OpcodeMap) (mem : Memory) (addr : Byte) : Listing :=
  let op := mem.read addr
  match mnemonicOf m op with
  | none => { opcode := op, ins := none, operand := none, size := 1 }
  | some mn =>
    { opcode := op, ins := some mn, operand := if mn.size = 2 then some (mem.read (addr + 1)) else none, size := mn.size }

/-- `n` records, each starting where the one before it ends, mod 256 (R77). -/
def disassemble (m : OpcodeMap) (mem : Memory) (addr : Byte) (n : Nat) : List Listing :=
  match n with
  | 0 => []
  | k + 1 =>
    let l := disassembleAt m mem addr
    l :: disassemble m mem (addr + wrapAddr l.size) k

end Sys2Proof.Machine
end

