-- ==== Sys2Proof/Machine/Load.lean ====
section
/-! DEFINITION. Machine/Load.lean: `load`, "the core's only reset" (70_reset_and_hazards.md R250 to R253). -/

namespace Sys2Proof.Machine

/-- The `start` of a `load` that gives none: `START_ADDRESS` is an "argument of `load`, default 0" (00_scope.md R7, 70_reset_and_hazards.md R251). -/
def defaultStart : Nat := 0

/-- `START_ADDRESS`: the `start` that a `load` gives, or the default where it is omitted. -/
def startAddress (start : Option Nat) : Nat := start.getD defaultStart

/-- The copy of an image from an address on: "in increasing `i`", with indices that wrap (R250, R252). -/
def copyImage (m : Memory) (addr : Byte) (image : List Byte) : Memory :=
  match image with
  | [] => m
  | v :: rest => copyImage (m.write addr v) (addr + 1) rest

/-- `Load(image, start)` (R250). It changes every component but `WP` (decision D8). -/
def loadImage (image : List Byte) (start : Nat) (s : State) : State where
  pc := wrapAddr start
  a := 0
  b := 0
  sp := 0xFF
  z := false
  c := false
  mem := copyImage [] (wrapAddr start) image
  halted := false
  out := []
  lastWrite := none
  trace := []
  wp := s.wp
  watchHit := false
  haltCause := .none

end Sys2Proof.Machine
end

