-- ==== Sys2Proof/Machine/Snapshot.lean ====
section
/-! DEFINITION. Machine/Snapshot.lean: the host snapshot (10_state.md R42) and its restore (60_exceptions.md R222). -/

namespace Sys2Proof.Machine

/-- A host snapshot: "a full deep copy of {registers, flags, memory, halted flag, output log, last-write address, trace log}" (R42). -/
structure Snapshot where
  pc : Byte
  a : Byte
  b : Byte
  sp : Byte
  z : Bool
  c : Bool
  mem : Memory
  halted : Bool
  out : List Byte
  lastWrite : Option Byte
  trace : List TraceEntry
  deriving DecidableEq, Repr, Inhabited

/-- The snapshot of a state (R42, R223). -/
def capture (s : State) : Snapshot where
  pc := s.pc
  a := s.a
  b := s.b
  sp := s.sp
  z := s.z
  c := s.c
  mem := s.mem
  halted := s.halted
  out := s.out
  lastWrite := s.lastWrite
  trace := s.trace

/-- The ghost cause after a restore: "the snapshot does not carry it" (10_state.md R33). -/
def restoredCause (halted : Bool) : HaltCause := if halted then .haltInstr else .none

/-- `Restore(s)` (R222): "full overwrite, never a merge", then one rollback entry. `WP` and `watchHit` are not changed. -/
def restore (cap : Nat) (p : Snapshot) (s : State) : State :=
  State.appendTrace
    { pc := p.pc, a := p.a, b := p.b, sp := p.sp, z := p.z, c := p.c, mem := p.mem, halted := p.halted, out := p.out,
      lastWrite := p.lastWrite, trace := p.trace, wp := s.wp, watchHit := s.watchHit, haltCause := restoredCause p.halted }
    cap .rollback

end Sys2Proof.Machine
end

