-- ==== Sys2Proof/Machine/Session.lean ====
section
/-! DEFINITION. Machine/Session.lean: the host interface (60_exceptions.md R220 to R237): the core, with what the history manager and the debug
controller hold around it, and one function for every command. A command acts between two whole steps (R237). -/

namespace Sys2Proof.Machine

/-- An event the debug controller logs (R228). -/
inductive HostEvent where
  /-- `break(b)`. -/
  | breakAt (addr : Byte)
  /-- `watch(lastWrite)`. -/
  | watch (addr : Option Byte)
  deriving DecidableEq, Repr

/-- A machine session: the core, and the host's own state. -/
structure Session where
  /-- The core. Before the first `load` its state is unspecified (10_state.md R41), and `loaded` is false. -/
  core : State
  loaded : Bool
  /-- The history manager's snapshots, newest first (R223). -/
  history : List Snapshot
  /-- `BP`, the breakpoint (R235). -/
  bp : Option Byte
  /-- The image last assembled, which a `load` does not change (R236). -/
  program : Option (List Byte)
  /-- The `start` of the last `load` (R236, decision D27). -/
  start : Nat
  /-- The events logged, oldest first. -/
  events : List HostEvent
  /-- The "run active" guard (R237). -/
  cadence : Bool
  /-- The model's own count of what the spec leaves to the host's choice (U8, U9): the free values are applied to it. Log entry 12. -/
  draws : Nat
  deriving DecidableEq, Repr

/-- The core's state between construction and the first `load`: unspecified (10_state.md R41), so a free value. Log entry 3. -/
opaque constructedState : State

/-- A session at machine construction. -/
def Session.constructed : Session where
  core := constructedState
  loaded := false
  history := []
  bp := none
  program := none
  start := defaultStart
  events := []
  cadence := false
  draws := 0

/-- What an inspection reports (60_exceptions.md R220, and "any other part of the state", 20_memory.md R66): every component of 10_state.md R20 but the ghost
`haltCause`, which no hardware holds (R33). -/
structure Inspection where
  pc : Byte
  a : Byte
  b : Byte
  z : Bool
  c : Bool
  sp : Byte
  halted : Bool
  mem : Memory
  trace : List TraceEntry
  out : List Byte
  lastWrite : Option Byte
  watchHit : Bool
  wp : Option Byte
  deriving DecidableEq, Repr

/-- What a command reports to the host. -/
inductive Report where
  | done
  /-- The report of `step()` and `stepOnce()`: the value of `watchHit` after the step (R221). -/
  | stepped (watchHit : Bool)
  /-- The report of `stepBack()` and `canStepBack()` (R223). -/
  | available (ok : Bool)
  /-- A host edit was accepted, or "rejected without mutation" (R225, R226). -/
  | accepted (ok : Bool)
  /-- Why a batch stopped before its last step, if it did (R228). -/
  | batch (stop : Option BatchStop)
  | assembled (image : List Byte)
  | assemblyFailed (e : AsmError)
  | inspected (i : Inspection)
  | listed (ls : List Listing)
  deriving DecidableEq, Repr

/-- The host's commands (R220), and the assembler's (R97). -/
inductive Command where
  /-- `load(image, start = 0)` (R220): `start` may be omitted. -/
  | load (image : List Byte) (start : Option Nat := none)
  | assemble (source : List Char)
  | step
  | stepBack
  | canStepBack
  | setMemoryByte (addr : Nat) (value : List Char)
  | setWatchpoint (text : Option (List Char))
  | clearWatchHit
  | setBreakpoint (text : Option (List Char))
  /-- The start of a run cadence (R228). -/
  | startRun
  | runBatch
  /-- The timer of an active cadence, which runs the next scheduled batch (R228, R241). -/
  | tick
  | stop
  | stepOnce
  | reset
  | inspect
  | disassemble (addr : Nat) (count : Nat)
  deriving DecidableEq, Repr

/-- The outcome of a command. -/
abbrev SessionOutcome := Host.Outcome (Session × Report) Fault Refusal

/-- `load(image, start)`: it resets the core (70_reset_and_hazards.md R250) and empties the history stack (R223). The image last assembled stays
what it was (R236). -/
def Session.load (q : Session) (image : List Byte) (start : Nat) : Session :=
  { q with core := loadImage image start q.core, loaded := true, history := [], start := start }

/-- `assemble(source)`: "A failed assembly leaves the previously loaded program untouched" (30_encoding.md R97). -/
def Session.assemble (cfg : Config) (q : Session) (source : List Char) : Session × Report :=
  match Sys2Proof.Machine.assemble cfg source with
  | .ok image => ({ q with program := some image }, .assembled image)
  | .error e => (q, .assemblyFailed e)

/-- "Before a step, it pushes a snapshot"; "A push past capacity discards the oldest" (R223). Before a no-op step on a halted core the push is
unconstrained (U8). -/
def Session.pushSnapshot (cfg : Config) (q : Session) : Session :=
  if q.core.halted && !cfg.snapshotBeforeNoop q.draws then { q with draws := q.draws + 1 }
  else { q with history := (capture q.core :: q.history).take cfg.historyCap, draws := q.draws + 1 }

/-- One `step()` of the core, with the history manager's snapshot before it (R221, R223). Refused before the first `load`. -/
def Session.step (cfg : Config) (q : Session) : Host.Outcome Session Fault Refusal :=
  if q.loaded then
    match engineStep cfg q.core with
    | .next t => .next { q.pushSnapshot cfg with core := t }
    | .fault r => .fault r
    | .refused r => .refused r
  else .refused .beforeFirstLoad

/-- The clear of the pending watch-hit (R227). -/
def Session.clearWatchHit (q : Session) : Session := { q with core := q.core.setWatchHit false }

/-- "log watch(lastWrite); watchHit <- 0" (R228), where the hit is pending. -/
def Session.reportWatch (q : Session) : Session :=
  if q.core.watchHit then { q.clearWatchHit with events := q.events ++ [.watch q.core.lastWrite] } else q

/-- `stepBack()` (R223): on an empty stack it "returns false and changes nothing". -/
def Session.stepBack (cfg : Config) (q : Session) : Session × Report :=
  match q.history with
  | [] => (q, .available false)
  | p :: rest => ({ q with core := restore cfg.traceCap p q.core, history := rest }, .available true)

/-- `setMemoryByte(addr, value)` (R225): a plain write of one cell, or a rejection. -/
def Session.setMemoryByte (q : Session) (addr : Nat) (value : List Char) : Session × Report :=
  match parseNumber value with
  | some v =>
    if v < 256 then ({ q with core := q.core.store (wrapAddr addr) (wrapAddr v) }, .accepted true)
    else (q, .accepted false)
  | none => (q, .accepted false)

/-- The address that a watchpoint or breakpoint text sets (R226, R235): `some none` clears it, `none` is a text to reject. -/
def parseOptAddr (text : Option (List Char)) : Option (Option Byte) :=
  match text with
  | none => some none
  | some [] => some none
  | some (c :: rest) =>
    match parseNumber (c :: rest) with
    | some n => some (some (wrapAddr n))
    | none => none

/-- `setWatchpoint(x)` (R226). -/
def Session.setWatchpoint (q : Session) (text : Option (List Char)) : Session × Report :=
  match parseOptAddr text with
  | some w => ({ q with core := q.core.setWp w }, .accepted true)
  | none => (q, .accepted false)

/-- `setBreakpoint(x)` (R235): "`BP` is not core state." -/
def Session.setBreakpoint (q : Session) (text : Option (List Char)) : Session × Report :=
  match parseOptAddr text with
  | some b => ({ q with bp := b }, .accepted true)
  | none => (q, .accepted false)

/-- The run loop's steps (R228): the breakpoint is tested before a step, the watch-hit and then `halted` after it (R202). -/
def batchSteps (cfg : Config) (n : Nat) (q : Session) : Host.Outcome (Session × Option BatchStop) Fault Refusal :=
  match n with
  | 0 => .next (q, none)
  | k + 1 =>
    if q.bp = some q.core.pc then
      .next ({ q with events := q.events ++ [.breakAt q.core.pc] }, some .breakpoint)
    else
      match q.step cfg with
      | .next t =>
        if t.core.watchHit then .next (t.reportWatch, some .watchHit)
        else if t.core.halted then .next (t, some .halted)
        else batchSteps cfg k t
      | .fault r => .fault r
      | .refused r => .refused r

/-- Whether the cadence goes on after a batch (U9). -/
def Session.afterBatch (cfg : Config) (q : Session) (stop : Option BatchStop) : Session :=
  match stop with
  | none => q
  | some why => { q with cadence := q.cadence && !cfg.stopEndsCadence q.draws why, draws := q.draws + 1 }

/-- `runBatch()` (R228). -/
def Session.runBatch (cfg : Config) (q : Session) : SessionOutcome :=
  if q.loaded then
    match batchSteps cfg cfg.batchSteps q with
    | .next (t, stop) => .next (t.afterBatch cfg stop, .batch stop)
    | .fault r => .fault r
    | .refused r => .refused r
  else .refused .beforeFirstLoad

/-- `stepOnce()` (R229): one step "regardless of breakpoint", with the watch-hit honoured. -/
def Session.stepOnce (cfg : Config) (q : Session) : SessionOutcome :=
  match q.step cfg with
  | .next t => .next (t.reportWatch, .stepped t.core.watchHit)
  | .fault r => .fault r
  | .refused r => .refused r

/-- `reset()` (R236): it "reloads the last-assembled image and clears history", with the `start` of the last `load` (decision D27). Where
no image has been assembled there is nothing to reload, and the spec gives no effect: refused (log entry 19). -/
def Session.reset (q : Session) : SessionOutcome :=
  match q.program with
  | some image => .next (q.load image q.start, .done)
  | none => .refused .noAssembledImage

/-- What an inspection reads (20_memory.md R66). -/
def inspection (s : State) : Inspection :=
  { pc := s.pc, a := s.a, b := s.b, z := s.z, c := s.c, sp := s.sp, halted := s.halted, mem := s.mem, trace := s.trace, out := s.out,
    lastWrite := s.lastWrite, watchHit := s.watchHit, wp := s.wp }

/-- One host command (R220). -/
def hostCommand (cfg : Config) (cmd : Command) (q : Session) : SessionOutcome :=
  match cmd with
  | .load image start => .next (q.load image (startAddress start), .done)
  | .assemble source => .next (q.assemble cfg source)
  | .step =>
    match q.step cfg with
    | .next t => .next (t, .stepped t.core.watchHit)
    | .fault r => .fault r
    | .refused r => .refused r
  | .stepBack => .next (q.stepBack cfg)
  | .canStepBack => .next (q, .available (!q.history.isEmpty))
  | .setMemoryByte addr value => .next (q.setMemoryByte addr value)
  | .setWatchpoint text => .next (q.setWatchpoint text)
  | .clearWatchHit => .next (q.clearWatchHit, .done)
  | .setBreakpoint text => .next (q.setBreakpoint text)
  | .startRun => .next ({ q with cadence := true }, .done)
  | .runBatch => q.runBatch cfg
  | .tick => if q.cadence then q.runBatch cfg else .next (q, .done)
  | .stop => .next ({ q with cadence := false }, .done)
  | .stepOnce => q.stepOnce cfg
  | .reset => q.reset
  | .inspect => if q.loaded then .next (q, .inspected (inspection q.core)) else .refused .beforeFirstLoad
  | .disassemble addr count =>
    if q.loaded then .next (q, .listed (disassemble cfg.opcodeMap q.core.mem (wrapAddr addr) count)) else .refused .beforeFirstLoad

/-- A sequence of host commands, each on the session the one before it leaves. -/
def hostCommands (cfg : Config) (cmds : List Command) (q : Session) : Host.Outcome Session Fault Refusal :=
  match cmds with
  | [] => .next q
  | cmd :: rest =>
    match hostCommand cfg cmd q with
    | .next (t, _) => hostCommands cfg rest t
    | .fault r => .fault r
    | .refused r => .refused r

end Sys2Proof.Machine
end

