-- ==== Sys2Proof/Safety.lean ====
section
/-! DEFINITION. Safety.lean: what counts as the end of a run and as a safe end (10_state.md R33, 47_halt.md R194, 70_reset_and_hazards.md R256), the
invariant of the core and of a session, and the views that the statements compare. -/

namespace Sys2Proof.Machine

/-- "A model's end-of-run definition should be `halted = 1`" (R256). -/
def State.ended (s : State) : Bool := s.halted

/-- "the program stopped at a `HALT`" (R194). -/
def State.endedAtHalt (s : State) : Bool := s.haltCause == .haltInstr

/-- An undefined byte was executed (R33). -/
def State.ranData (s : State) : Bool :=
  match s.haltCause with
  | .undefinedOpcode _ => true
  | .none => false
  | .haltInstr => false

/-- Two neighbouring entries of a trace: the later step began where the earlier one ended, and the earlier one did not halt. A rollback entry
constrains nothing. -/
def entryFollows (x y : TraceEntry) : Bool :=
  match x with
  | .rollback => true
  | .exec d =>
    match y with
    | .rollback => true
    | .exec e => d.pcAfter == e.pcBefore && d.after == e.before && !d.halt

/-- Each entry of a trace follows the one before it. -/
def traceChained (t : List TraceEntry) : Bool :=
  match t with
  | [] => true
  | x :: rest =>
    (match rest with
      | [] => true
      | y :: _ => entryFollows x y) && traceChained rest

/-- An entry agrees with the opcode map, and has the halt marker exactly when it is of `HALT` or of an unrecognized opcode (60_exceptions.md R211). -/
def entryOk (m : OpcodeMap) (x : TraceEntry) : Bool :=
  match x with
  | .rollback => true
  | .exec e => e.listing.wf m && e.halt == (e.ins == none || e.ins == some .HALT)

/-- The newest entry of the trace is of the step that left the state. -/
def lastEntryOk (s : State) : Bool :=
  match s.trace.getLast? with
  | none => true
  | some .rollback => true
  | some (.exec e) => e.pcAfter == s.pc && e.after == s.view && e.halt == s.halted

/-- The ghost cause is set exactly when the core is halted, and names only an unrecognized opcode (10_state.md R33). -/
def causeOk (m : OpcodeMap) (s : State) : Bool :=
  match s.haltCause with
  | .none => !s.halted
  | .haltInstr => s.halted
  | .undefinedOpcode op => s.halted && mnemonicOf m op == none

/-- The core's invariant: canonical memory, a bounded trace (60_exceptions.md R210) that is a connected record of the steps that led here (R211, R212), and a
cause exactly when halted (R33). -/
structure State.Inv (cfg : Config) (s : State) : Prop where
  memory : s.mem.wf = true
  bounded : s.trace.length ≤ cfg.traceCap
  entries : s.trace.all (entryOk cfg.opcodeMap) = true
  chained : traceChained s.trace = true
  newest : lastEntryOk s = true
  cause : causeOk cfg.opcodeMap s = true

/-- What the invariant says of a snapshot. -/
structure Snapshot.Inv (cfg : Config) (p : Snapshot) : Prop where
  memory : p.mem.wf = true
  entries : p.trace.all (entryOk cfg.opcodeMap) = true
  chained : traceChained p.trace = true

/-- The invariant of a session: the core's, once an image is loaded (10_state.md R41), that of a bounded history (60_exceptions.md R223), and that
Halted, once entered, was not left by a step: a snapshot newer than a halted one is halted, and so is the core (30_encoding.md R81). -/
structure Session.Inv (cfg : Config) (q : Session) : Prop where
  core : q.loaded = true → q.core.Inv cfg
  snapshots : ∀ p ∈ q.history, p.Inv cfg
  bounded : q.history.length ≤ cfg.historyCap
  haltStays : (q.core.halted :: q.history.map Snapshot.halted).Pairwise fun newer older => older = true → newer = true

/-- What a program can observe of the machine (10_state.md R36): it "cannot read" the rest. -/
def sameProgramView (s t : State) : Prop :=
  s.pc = t.pc ∧ s.view = t.view ∧ s.mem = t.mem ∧ s.halted = t.halted

/-- Two states that agree on everything but memory. -/
def sameButMemory (s t : State) : Prop := s.setMem [] = t.setMem []

/-- Two states that agree on everything but the debugger's watchpoint and its latch. -/
def sameButWatch (s t : State) : Prop := (s.setWp none).setWatchHit false = (t.setWp none).setWatchHit false

/-- The bytes of an instruction stand at `PC`. -/
def instrAtPc (m : OpcodeMap) (i : Instr) (s : State) : Prop :=
  s.load s.pc = m i.mnemonic ∧ ∀ k, i.operand = some k → s.load (s.pc + 1) = k

/-- The state an instruction's body begins in: "the address of the next sequential instruction" is in `PC` (30_encoding.md R80). -/
def afterFetch (i : Instr) (s : State) : State := { s with pc := s.pc + BitVec.ofNat 8 i.size }

/-- `n` commands `step()`. -/
def sessionSteps (cfg : Config) (n : Nat) (q : Session) : Host.Outcome Session Fault Refusal :=
  hostCommands cfg (List.replicate n .step) q

/-- `n` commands `stepBack()`. -/
def sessionStepBacks (cfg : Config) (n : Nat) (q : Session) : Host.Outcome Session Fault Refusal :=
  hostCommands cfg (List.replicate n .stepBack) q

end Sys2Proof.Machine
end

