-- ==== Sys2Proof/Certificates/Slice0/Obligations.lean ====
section
/-! DEFINITION. Certificates/Slice0/Obligations.lean: the statements for the provers, in the order of OBLIGATIONS.json. -/

open Sys2Proof Sys2Proof.Machine

/-! ## Encoding and decoding -/

/-- 30_encoding.md R70 to R72, R78: for every injective opcode map, the decoder reads every instruction back from its bytes, with its operand and leaving
the bytes after it, and answers nothing else. -/
def Obligations.DecodeOfEncodeIsTheInstruction : Prop :=
  ∀ m : OpcodeMap, m.wf = true →
    (∀ (i : Instr) (rest : List Byte), decodeWith m (encodeWith m i ++ rest) = .ok (i, rest)) ∧
    (∀ (bytes : List Byte) (i : Instr) (rest : List Byte),
      decodeWith m bytes = .ok (i, rest) → bytes = encodeWith m i ++ rest)

/-- Words written out from the default map of 30_encoding.md R74, which is the spec's decision D1. -/
def Obligations.DefaultMapWordsDecode : Prop :=
  decode [0x01, 0x05] = .ok (.ldaImm 0x05, []) ∧ decode [0x03, 0x08] = .ok (.add, [0x08]) ∧
  decode [0x05, 0xFF] = .ok (.subAImm 0xFF, []) ∧ decode [0x08] = .ok (.printA, []) ∧
  decode [0x0B, 0x02] = .ok (.jnz 0x02, []) ∧ decode [0x0D, 0x80] = .ok (.staMem 0x80, []) ∧
  decode [0x11] = .ok (.popB, []) ∧ decode [0x12, 0x08] = .ok (.call 0x08, []) ∧
  decode [0x14] = .ok (.halt, []) ∧ decode [0x00] = .error (.unrecognizedOpcode 0x00) ∧
  decode [0x15] = .error (.unrecognizedOpcode 0x15)

/-- 30_encoding.md R76: whichever injective map is taken, 236 byte values are unrecognized; under the default map 0x00 is one of them. -/
def Obligations.EveryMapLeaves236BytesUnrecognized : Prop :=
  (∀ m : OpcodeMap, m.wf = true →
    ((List.range 256).filter fun n => mnemonicOf m (BitVec.ofNat 8 n) == none).length = 236) ∧
  mnemonicOf defaultOpcodeMap 0x00 = none

/-- 30_encoding.md R77, R83, R84: the disassembler's record at an address is that of the instruction the engine fetches there, and of a raw byte of size
1 where the engine finds an unrecognized opcode; its size depends on the opcode byte alone. -/
def Obligations.DisassemblerAgreesWithTheEngine : Prop :=
  ∀ (m : OpcodeMap) (s : State),
    (disassembleAt m s.mem s.pc).wf m = true ∧
    (∀ i, fetchInstr m s = some i → disassembleAt m s.mem s.pc = i.listing m) ∧
    (fetchInstr m s = none →
      disassembleAt m s.mem s.pc = { opcode := s.mem.read s.pc, ins := none, operand := none, size := 1 }) ∧
    (∀ (mem : Memory) (addr : Byte), mem.read addr = s.mem.read s.pc →
      (disassembleAt m mem addr).size = (disassembleAt m s.mem s.pc).size)

/-- 30_encoding.md R86: an image loaded anywhere disassembles, from its first byte on, to the program it encodes; and the images the assembler gives are
of that kind. -/
def Obligations.LoadedImagesDisassembleToTheirProgram : Prop :=
  (∀ (m : OpcodeMap) (p : List Instr) (start : Nat) (s : State), m.wf = true → (encodeProgram m p).length ≤ 256 →
    disassemble m (loadImage (encodeProgram m p) start s).mem (wrapAddr start) p.length = p.map (Instr.listing m)) ∧
  (∀ (cfg : Config) (src : List Char) (image : List Byte), assemble cfg src = .ok image →
    ∃ p, assembleLines (sourceLines cfg.constKeyword src) = .ok p ∧ image = encodeProgram cfg.opcodeMap p)

/-! ## The step -/

/-- When the bytes at `PC` decode to an instruction, a step of this hardware is `exec` of it in the state whose `PC` is past its bytes, followed by the
trace entry of 60_exceptions.md R212 (30_encoding.md R80). -/
def Obligations.StepRunsTheDecodedInstruction : Prop :=
  ∀ (s : State) (i : Instr) (rest : List Byte), s.halted = false →
    decode [s.load s.pc, s.load (s.pc + 1)] = .ok (i, rest) →
    step s = mapNext (recordStep defaultConfig.traceCap s (s.load s.pc) (some i.mnemonic) i.operand) (exec i (afterFetch i s))

/-- 30_encoding.md R78, R80: the same of the engine under every configuration, from the bytes of the instruction: its opcode byte at `PC` and its operand
byte, where it has one, at the next address mod 256. -/
def Obligations.EngineRunsTheInstructionAtPc : Prop :=
  ∀ (cfg : Config) (s : State) (i : Instr), cfg.opcodeMap.wf = true → s.halted = false → instrAtPc cfg.opcodeMap i s →
    engineStep cfg s =
      mapNext (recordStep cfg.traceCap s (cfg.opcodeMap i.mnemonic) (some i.mnemonic) i.operand) (exec i (afterFetch i s))

/-- 30_encoding.md R81: a step of a halted core "changes nothing". -/
def Obligations.HaltedStepChangesNothing : Prop :=
  ∀ s : State, s.halted = true → step s = .next s ∧ ∀ cfg : Config, engineStep cfg s = .next s

/-- 47_halt.md R192, R193, R203: an unrecognized opcode halts, with its ghost cause (decision D14); it changes only `halted`, the cause, `PC`, which advances
by one, and the trace, which gains the halting entry and keeps its last `TRACE_CAP` entries (R203, R211), and fetches no operand. -/
def Obligations.UnrecognizedOpcodeHalts : Prop :=
  ∀ (cfg : Config) (s : State), s.halted = false → (∀ mn, cfg.opcodeMap mn ≠ s.load s.pc) →
    ∃ t, engineStep cfg s = .next t ∧
      t = { s with pc := s.pc + 1, halted := true, haltCause := .undefinedOpcode (s.load s.pc), trace := t.trace } ∧
      t.trace.length = min cfg.traceCap (s.trace.length + 1) ∧
      ∃ dropped, s.trace ++ [.exec ⟨s.pc, s.load s.pc, none, none, s.view, s.view, s.pc + 1, true⟩] = dropped ++ t.trace

/-- 60_exceptions.md R200: "Execution never raises errors": a step of the core, and the body of every instruction, answers a next state in every state, and the
machine has no fault to raise. A core not halted halts on an unrecognized opcode. -/
def Obligations.ExecutionNeverRaisesErrors : Prop :=
  (∀ (i : Instr) (s : State), ∃ t, exec i s = .next t) ∧
  (∀ (cfg : Config) (s : State), ∃ t, engineStep cfg s = .next t ∧
    (s.halted = false → fetchInstr cfg.opcodeMap s = none → t.halted = true)) ∧
  (∀ s : State, ∃ t, step s = .next t) ∧ ¬ Nonempty Fault

/-! ## What each instruction does -/

/-- 40_immediate_loads.md R112 (with the values of R110 and R111): the immediate loads write their register and `Z`, from that register, and nothing else. -/
def Obligations.ImmediateLoadsWriteTheirRegisterAndZ : Prop :=
  ∀ (k : Byte) (s : State),
    exec (.ldaImm k) s = .next { s with a := k, z := decide (k = 0) } ∧
    exec (.ldbImm k) s = .next { s with b := k, z := decide (k = 0) }

/-- 41_arithmetic.md R120, R121: the sum is exact in `A` and the carry together, `Z` is that of the reduced result, and nothing else changes; with `C = 0`,
`ADC` equals `ADD`. -/
def Obligations.AddAndAdcAreExactWithCarry : Prop :=
  ∀ s : State,
    (∃ t, exec .add s = .next t ∧ t = { s with a := t.a, z := t.z, c := t.c } ∧
      t.a.toNat + 256 * bitNat t.c = s.a.toNat + s.b.toNat ∧ (t.z = true ↔ t.a = 0)) ∧
    (∃ t, exec .adc s = .next t ∧ t = { s with a := t.a, z := t.z, c := t.c } ∧
      t.a.toNat + 256 * bitNat t.c = s.a.toNat + s.b.toNat + bitNat s.c ∧ (t.z = true ↔ t.a = 0)) ∧
    (s.c = false → exec .adc s = exec .add s)

/-- 41_arithmetic.md R122 to R124: subtraction, comparison and decrement wrap mod 256, write `Z` and no carry, and change nothing else. -/
def Obligations.SubtractCompareAndDecrementWrap : Prop :=
  ∀ (k : Byte) (s : State),
    (∃ t, exec (.subAImm k) s = .next t ∧ t = { s with a := t.a, z := t.z } ∧
      (t.a.toNat + k.toNat) % 256 = s.a.toNat ∧ (t.z = true ↔ s.a = k)) ∧
    exec (.cmpAImm k) s = .next { s with z := decide (s.a = k) } ∧
    (∃ t, exec .decA s = .next t ∧ t = { s with a := t.a, z := t.z } ∧
      (t.a.toNat + 1) % 256 = s.a.toNat ∧ (t.z = true ↔ s.a = 1))

/-- 41_arithmetic.md R127: the arithmetic instructions read and write no memory beyond their own bytes, and change nothing but `A` and the flags. -/
def Obligations.ArithmeticTouchesOnlyAAndTheFlags : Prop :=
  ∀ (i : Instr) (s : State) (m : Memory), i.mnemonic ∈ [.ADD, .ADC, .SUB_A_IMM, .CMP_A_IMM, .DEC_A] →
    (∃ t, exec i s = .next t ∧ t = { s with a := t.a, z := t.z, c := t.c }) ∧
    exec i (s.setMem m) = mapNext (·.setMem m) (exec i s)

/-- 41_arithmetic.md R126: chaining the low and the high bytes through `C` adds two 16-bit numbers exactly, whatever the state between the `ADD` and the
`ADC`, so long as `C` is kept. -/
def Obligations.SixteenBitSumsChainThroughCarry : Prop :=
  ∀ s t u v : State, exec .add s = .next t → u.c = t.c → exec .adc u = .next v →
    t.a.toNat + 256 * v.a.toNat + 65536 * bitNat v.c =
      (s.a.toNat + 256 * u.a.toNat) + (s.b.toNat + 256 * u.b.toNat)

/-- 42_output.md R142 (and R140, decision D13: the entry is the byte): `PRINTA` appends `A` to the output port and changes nothing else. -/
def Obligations.PrintAAppendsA : Prop :=
  ∀ s : State, exec .printA s = .next { s with out := s.out ++ [s.a] }

/-- 43_jumps.md R145 to R147 (the flag and polarity of `JZ` and `JNZ` are decision D4): a jump writes `PC`, which otherwise stays at the fall-through address,
and nothing else. -/
def Obligations.JumpsWriteOnlyPc : Prop :=
  ∀ (k : Byte) (s : State),
    exec (.jmp k) s = .next { s with pc := k } ∧
    exec (.jz k) s = .next { s with pc := if s.z = true then k else s.pc } ∧
    exec (.jnz k) s = .next { s with pc := if s.z = false then k else s.pc }

/-- 44_memory_access.md R155: `LDA_MEM` loads `A` from its address, writes `Z` exactly when the open parameter `LDA_MEM_SETS_Z` is true (decision D3), and changes
nothing else. It holds for both values of the parameter. -/
def Obligations.LdaMemLoadsTheCell : Prop :=
  ∀ (k : Byte) (s : State), exec (.ldaMem k) s =
    .next { s with a := s.mem.read k, z := if Config.ldaMemSetsZ = true then decide (s.mem.read k = 0) else s.z }

/-- 44_memory_access.md R156, R157 (the latch is sticky by decision D9): `STA_MEM` stores `A` at its address and nowhere else, records the address, and raises the
watch-hit when the address is the armed watchpoint's; nothing else changes. -/
def Obligations.StaMemStoresAndCompares : Prop :=
  ∀ (k : Byte) (s : State), s.mem.wf = true →
    ∃ t, exec (.staMem k) s = .next t ∧
      t = { s with mem := t.mem, lastWrite := some k, watchHit := t.watchHit } ∧
      (∀ x, t.mem.read x = if x = absAddr k then s.a else s.mem.read x) ∧
      (t.watchHit = true ↔ s.watchHit = true ∨ s.wp = some k)

/-- 44_memory_access.md R158: `LDA_MEM` reads one cell and writes none, `STA_MEM` writes one and reads none: another memory, if it agrees on the cell loaded, leads to
the same next state but for the memory. Neither changes `SP`, `B`, `C` or `out`, and `STA_MEM` changes neither `A` nor `Z`. -/
def Obligations.LoadAndStoreAccessOneByte : Prop :=
  ∀ (k : Byte) (s : State) (m : Memory), s.mem.wf = true → m.wf = true →
    (∃ t, exec (.ldaMem k) s = .next t ∧ t.mem = s.mem ∧ t.sp = s.sp ∧ t.b = s.b ∧ t.c = s.c ∧ t.out = s.out ∧
      (m.read (absAddr k) = s.mem.read (absAddr k) → exec (.ldaMem k) (s.setMem m) = .next (t.setMem m))) ∧
    (∃ t u, exec (.staMem k) s = .next t ∧ t.sp = s.sp ∧ t.b = s.b ∧ t.c = s.c ∧ t.out = s.out ∧ t.a = s.a ∧ t.z = s.z ∧
      (∀ x, x ≠ absAddr k → t.mem.read x = s.mem.read x) ∧
      exec (.staMem k) (s.setMem m) = .next u ∧ sameButMemory t u ∧ t.mem.read (absAddr k) = u.mem.read (absAddr k) ∧
      ∀ x, x ≠ absAddr k → u.mem.read x = m.read x)

/-- 45_stack.md R165, R170, R171: a push "writes the cell `SP` points at, then decrements `SP`", a pop "increments `SP`, then reads the cell `SP` now points
at"; `SP` is mod 256 and starts at 0xFF; a push changes no register but `SP`, a pop only `SP`, its destination and `Z`. -/
def Obligations.StackDiscipline : Prop :=
  (∀ s : State, s.mem.wf = true →
    (∃ t, exec .pushA s = .next t ∧ t = { s with mem := t.mem, sp := s.sp - 1 } ∧
      ∀ x, t.mem.read x = if x = s.pushAddr then s.a else s.mem.read x) ∧
    (∃ t, exec .pushB s = .next t ∧ t = { s with mem := t.mem, sp := s.sp - 1 } ∧
      ∀ x, t.mem.read x = if x = s.pushAddr then s.b else s.mem.read x)) ∧
  (∀ s : State,
    exec .popA s = .next { s with sp := s.sp + 1, a := s.mem.read (s.sp + 1), z := decide (s.mem.read (s.sp + 1) = 0) } ∧
    exec .popB s = .next { s with sp := s.sp + 1, b := s.mem.read (s.sp + 1), z := decide (s.mem.read (s.sp + 1) = 0) } ∧
    s.pushAddr = s.sp ∧ (s.sp = 0x00 → s.sp - 1 = 0xFF) ∧ (s.sp = 0xFF → s.sp + 1 = 0x00)) ∧
  State.reset.pushAddr = 0xFF ∧ ∀ t, exec .pushA State.reset = .next t → t.sp = 0xFE

/-- 46_call_return.md R180, R181: `CALL` pushes the address its body begins with in `PC`, which is the post-operand one, and jumps; `RET` pops into `PC` and writes no
flag. Nothing else changes. -/
def Obligations.CallPushesAndRetPops : Prop :=
  ∀ (k : Byte) (s : State),
    (s.mem.wf = true → ∃ t, exec (.call k) s = .next t ∧ t = { s with mem := t.mem, sp := s.sp - 1, pc := k } ∧
      ∀ x, t.mem.read x = if x = s.pushAddr then s.pc else s.mem.read x) ∧
    exec .ret s = .next { s with sp := s.sp + 1, pc := s.mem.read (s.sp + 1) }

/-- 47_halt.md R190 (the ghost cause is decision D14): `HALT` sets `halted` and its cause, and leaves the rest as the fetch left it. -/
def Obligations.HaltStopsTheCore : Prop :=
  ∀ s : State, exec .halt s = .next { s with halted := true, haltCause := .haltInstr }

/-! ## Sequences of instructions -/

/-- 10_state.md R23, 45_stack.md R165: `PUSH_A` then `POP_B` copies `A` into `B`, with `SP` back where it was and `Z` that of the byte, where the push does not
overwrite the `POP_B` itself. -/
def Obligations.PushAThenPopBCopiesAToB : Prop :=
  ∀ (cfg : Config) (s : State), cfg.opcodeMap.wf = true → s.mem.wf = true → s.halted = false →
    s.load s.pc = cfg.opcodeMap .PUSH_A → s.load (s.pc + 1) = cfg.opcodeMap .POP_B → s.sp ≠ s.pc + 1 →
    ∃ t, engineRun cfg 2 s = .next t ∧
      t = { s with pc := s.pc + 2, b := s.a, z := decide (s.a = 0), mem := t.mem, trace := t.trace } ∧
      ∀ x, t.mem.read x = if x = s.sp then s.a else s.mem.read x

/-- 46_call_return.md R180, R181: a `CALL` to a `RET` comes back to the byte after the `CALL`, with every register and flag as before, where the push does not overwrite
the `RET` itself. The return address wraps mod 256. -/
def Obligations.CallToARetComesBack : Prop :=
  ∀ (cfg : Config) (s : State) (k : Byte), cfg.opcodeMap.wf = true → s.mem.wf = true → s.halted = false →
    instrAtPc cfg.opcodeMap (.call k) s → s.load k = cfg.opcodeMap .RET → s.sp ≠ k →
    ∃ t, engineRun cfg 2 s = .next t ∧ t = { s with pc := s.pc + 2, mem := t.mem, trace := t.trace } ∧
      ∀ x, t.mem.read x = if x = s.sp then s.pc + 2 else s.mem.read x

/-- 43_jumps.md R149: "A program that loops forever ... runs forever": after any number of steps a `JMP` to its own address has neither moved nor halted. -/
def Obligations.SelfJumpNeverHalts : Prop :=
  ∀ (cfg : Config) (n : Nat) (s : State), cfg.opcodeMap.wf = true → s.halted = false → instrAtPc cfg.opcodeMap (.jmp s.pc) s →
    ∃ t, engineRun cfg n s = .next t ∧ t = { s with trace := t.trace }

/-- 20_memory.md R62: what a step stores is seen by the next step's fetch of its opcode and of its operand, and the storing step itself ran the bytes that
stood at `PC` before the store. -/
def Obligations.StoresAreSeenByTheNextFetch : Prop :=
  ∀ (cfg : Config) (s t : State) (i : Instr) (x v : Byte), s.mem.wf = true → s.halted = false →
    fetchInstr cfg.opcodeMap s = some i → storeOf i (afterFetch i s) = some (x, v) → engineStep cfg s = .next t →
    t.load x = v ∧
    (t.pc = x → fetchInstr cfg.opcodeMap t = decodeOp cfg.opcodeMap v (t.load (x + 1))) ∧
    (t.pc + 1 = x → fetchInstr cfg.opcodeMap t = decodeOp cfg.opcodeMap (t.load t.pc) v) ∧
    ∃ u, exec i (afterFetch i s) = .next u ∧ t.mem = u.mem ∧ t.pc = u.pc ∧ t.view = u.view

/-! ## Frames and rules of the whole machine -/

/-- 10_state.md R27: `C` is "Written by `ADD` and `ADC` only", as the carry of the unreduced sum, "Read by `ADC` only", and 0 at reset. -/
def Obligations.CarryIsWrittenByAdditionsAndReadByAdc : Prop :=
  (∀ (i : Instr) (s t : State), exec i s = .next t → i ≠ .add → i ≠ .adc → t.c = s.c) ∧
  (∀ s t : State, exec .add s = .next t → (t.c = true ↔ 255 < s.a.toNat + s.b.toNat)) ∧
  (∀ s t : State, exec .adc s = .next t → (t.c = true ↔ 255 < s.a.toNat + s.b.toNat + bitNat s.c)) ∧
  (∀ (i : Instr) (s : State) (v : Bool), i ≠ .adc →
    mapNext (·.setC v) (exec i (s.setC v)) = mapNext (·.setC v) (exec i s)) ∧
  (∀ (s : State) (v : Bool), exec .add (s.setC v) = exec .add s) ∧
  State.reset.c = false ∧ ∀ (image : List Byte) (start : Nat) (s : State), (loadImage image start s).c = false

/-- 10_state.md R26: the writers of `Z`, each from the value its rule names (`LDA_MEM` by the open parameter, decision D3), and its readers, the conditional jumps
(decision D4). -/
def Obligations.ZeroFlagWritersAndReaders : Prop :=
  (∀ (i : Instr) (s t : State), exec i s = .next t →
    match i with
    | .ldaImm _ | .add | .adc | .subAImm _ | .decA | .popA => (t.z = true ↔ t.a = 0)
    | .ldbImm _ | .popB => (t.z = true ↔ t.b = 0)
    | .cmpAImm k => (t.z = true ↔ s.a = k)
    | .ldaMem _ => if Config.ldaMemSetsZ = true then (t.z = true ↔ t.a = 0) else t.z = s.z
    | .printA | .jmp _ | .jz _ | .jnz _ | .staMem _ | .pushA | .pushB | .call _ | .ret | .halt => t.z = s.z) ∧
  (∀ (i : Instr) (s : State) (v : Bool), (∀ k, i ≠ .jz k) → (∀ k, i ≠ .jnz k) →
    mapNext (·.setZ v) (exec i (s.setZ v)) = mapNext (·.setZ v) (exec i s)) ∧
  State.reset.z = false

/-- 10_state.md R22: the instructions that write `A`, and those that read it; `CMP_A_IMM` "reads `A` and leaves it unchanged". -/
def Obligations.AccumulatorWritersAndReaders : Prop :=
  (∀ (i : Instr) (s t : State), exec i s = .next t →
    i.mnemonic ∉ [.LDA_IMM, .LDA_MEM, .ADD, .ADC, .SUB_A_IMM, .DEC_A, .POP_A] → t.a = s.a) ∧
  (∀ (i : Instr) (s : State) (v : Byte),
    i.mnemonic ∉ [.ADD, .ADC, .SUB_A_IMM, .CMP_A_IMM, .DEC_A, .PRINTA, .STA_MEM, .PUSH_A] →
    mapNext (·.setA v) (exec i (s.setA v)) = mapNext (·.setA v) (exec i s) ∧
    (i.mnemonic ∈ [.LDA_IMM, .LDA_MEM, .POP_A] → exec i (s.setA v) = exec i s)) ∧
  (∀ (k : Byte) (s t : State), exec (.cmpAImm k) s = .next t → t.a = s.a ∧
    exec (.cmpAImm k) (s.setA k) = .next ((s.setA k).setZ true))

/-- 10_state.md R23, R24: the writers and readers of `B`, and the instructions that move `SP`, each by one mod 256. -/
def Obligations.DataRegisterAndStackPointerWriters : Prop :=
  (∀ (i : Instr) (s t : State), exec i s = .next t →
    (i.mnemonic ∉ [.LDB_IMM, .POP_B] → t.b = s.b) ∧
    (i.mnemonic ∈ [.PUSH_A, .PUSH_B, .CALL] → (t.sp.toNat + 1) % 256 = s.sp.toNat) ∧
    (i.mnemonic ∈ [.POP_A, .POP_B, .RET] → t.sp.toNat = (s.sp.toNat + 1) % 256) ∧
    (i.mnemonic ∉ [.PUSH_A, .PUSH_B, .CALL, .POP_A, .POP_B, .RET] → t.sp = s.sp)) ∧
  (∀ (i : Instr) (s : State) (v : Byte), i.mnemonic ∉ [.ADD, .ADC, .PUSH_B] →
    mapNext (·.setB v) (exec i (s.setB v)) = mapNext (·.setB v) (exec i s))

/-- 20_memory.md R54: a step changes no cell but the one its instruction stores to, which is left holding the byte stored; the address is the one the
instruction's addressing mode gives in the state after the fetch. A step that stores nothing leaves every cell as it was. -/
def Obligations.StepsWriteOnlyTheStoredCell : Prop :=
  ∀ (cfg : Config) (s t : State), s.mem.wf = true → engineStep cfg s = .next t →
    ∀ x, t.mem.read x =
      match (if s.halted then none else fetchInstr cfg.opcodeMap s).bind fun i => storeOf i (afterFetch i s) with
      | some (y, v) => if x = y then v else s.mem.read x
      | none => s.mem.read x

/-- 20_memory.md R54, R57: a step depends on no cell but the opcode's, a two-byte instruction's operand's, and the one its instruction loads from. If another
memory agrees on those, the step does the same: the same next state but for memory, and the same cells changed to the same bytes. -/
def Obligations.StepsReadOnlyFetchedAndLoadedCells : Prop :=
  ∀ (cfg : Config) (s t : State) (m : Memory), s.mem.wf = true → m.wf = true →
    m.read s.pc = s.mem.read s.pc →
    (∀ i, fetchInstr cfg.opcodeMap s = some i →
      (i.size = 2 → m.read (s.pc + 1) = s.mem.read (s.pc + 1)) ∧
      (∀ x, loadAddr i (afterFetch i s) = some x → m.read x = s.mem.read x)) →
    engineStep cfg s = .next t →
    ∃ u, engineStep cfg (s.setMem m) = .next u ∧ sameButMemory t u ∧
      ∀ x, u.mem.read x = t.mem.read x ∨ (t.mem.read x = s.mem.read x ∧ u.mem.read x = m.read x)

/-- 10_state.md R36: a program cannot observe `lastWrite`, `watchHit`, `WP`, the ghost cause, the trace or the output log: two states that agree on the rest
still agree on the rest after any number of steps. -/
def Obligations.ProgramsCannotObserveDebugState : Prop :=
  ∀ (cfg : Config) (n : Nat) (s t s' : State), sameProgramView s t → engineRun cfg n s = .next s' →
    ∃ t', engineRun cfg n t = .next t' ∧ sameProgramView s' t'

/-- 60_exceptions.md R238: "identical program + identical command sequence ... always yields identical trace and output sequences", from whatever states the
two loads begin in. (That a load sets `lastWrite` and `watchHit`, and so that they agree, is decision D8.) -/
def Obligations.SameImageGivesSameTraceAndOutput : Prop :=
  ∀ (cfg : Config) (n : Nat) (image : List Byte) (start : Nat) (s t s' : State),
    engineRun cfg n (loadImage image start s) = .next s' →
    ∃ t', engineRun cfg n (loadImage image start t) = .next t' ∧ s'.trace = t'.trace ∧ s'.out = t'.out ∧ sameButWatch s' t'

/-- 42_output.md R140 (an entry is the byte of `A`, decision D13): the output port is append-only: a step appends `A` if it runs `PRINTA` and nothing otherwise, so a
run of `n` steps appends at most `n` bytes. -/
def Obligations.OutputIsAppendOnly : Prop :=
  (∀ (cfg : Config) (s t : State), engineStep cfg s = .next t →
    t.out = if s.halted = false ∧ fetchInstr cfg.opcodeMap s = some .printA then s.out ++ [s.a] else s.out) ∧
  (∀ (cfg : Config) (n : Nat) (s t : State), engineRun cfg n s = .next t →
    ∃ more, t.out = s.out ++ more ∧ more.length ≤ n)

/-- 10_state.md R31, R32, R34, 44_memory_access.md R157 (decisions D9, D10): a step never writes `WP` and never lowers the watch-hit; it changes `lastWrite` or raises
the watch-hit only by a `STA_MEM`, to whose address `lastWrite` is set, and raises it only when that is the watchpoint. -/
def Obligations.OnlyStaMemTouchesTheDebugLatches : Prop :=
  ∀ (cfg : Config) (s t : State), engineStep cfg s = .next t →
    t.wp = s.wp ∧ (s.watchHit = true → t.watchHit = true) ∧
    (t.lastWrite ≠ s.lastWrite ∨ t.watchHit ≠ s.watchHit →
      ∃ k, fetchInstr cfg.opcodeMap s = some (.staMem k) ∧ s.halted = false ∧ t.lastWrite = some k) ∧
    (t.watchHit ≠ s.watchHit → s.wp = t.lastWrite)

/-- 60_exceptions.md R202: within one step at most one of the core's two events occurs, the halt and the watch-hit. -/
def Obligations.HaltAndWatchHitExcludeEachOther : Prop :=
  ∀ (cfg : Config) (s t : State), engineStep cfg s = .next t →
    ¬ (s.halted = false ∧ t.halted = true ∧ s.watchHit = false ∧ t.watchHit = true)

/-- 10_state.md R29: `halted` is "Set to 1 only by executing `HALT` or an unrecognized opcode", and "Cleared only by `load` ... or by a host restore of a snapshot whose
`halted` is 0" (`reset()` is a `load`); the host reads it, and it is 0 at reset. A host command sets it only by running steps, or by the restore of a halted snapshot,
of which a running core has none newest in a session that meets the session's invariant. -/
def Obligations.HaltedIsSetAndClearedAsStated : Prop :=
  (∀ (cfg : Config) (s t : State), engineStep cfg s = .next t → s.halted = false →
    (t.halted = true ↔ fetchInstr cfg.opcodeMap s = some .halt ∨ fetchInstr cfg.opcodeMap s = none)) ∧
  (∀ (cfg : Config) (cmd : Command) (q r : Session) (rep : Report), hostCommand cfg cmd q = .next (r, rep) →
    q.core.halted = true → r.core.halted = false →
    (∃ image start, cmd = .load image start) ∨ cmd = .reset ∨
      (cmd = .stepBack ∧ ∃ p rest, q.history = p :: rest ∧ p.halted = false)) ∧
  (∀ (cfg : Config) (cmd : Command) (q r : Session) (rep : Report), hostCommand cfg cmd q = .next (r, rep) →
    q.core.halted = false → r.core.halted = true →
    ((cmd ∈ [.step, .stepOnce, .runBatch, .tick] ∧ ∃ n t, engineRun cfg n q.core = .next t ∧ t.halted = true) ∨
      (cmd = .stepBack ∧ ∃ p rest, q.history = p :: rest ∧ p.halted = true)) ∧
    (q.Inv cfg → cmd ≠ .stepBack)) ∧
  (∀ s : State, (inspection s).halted = s.halted) ∧ State.reset.halted = false

/-! ## The trace and the invariants -/

/-- 60_exceptions.md R212: an executing step appends its entry, with the fields of R211, and keeps the last `TRACE_CAP` entries; a step of a halted core appends nothing. -/
def Obligations.EachExecutingStepAppendsItsTraceEntry : Prop :=
  ∀ (cfg : Config) (s t : State), engineStep cfg s = .next t →
    (s.halted = true → t.trace = s.trace) ∧
    (s.halted = false → t.trace.length = min cfg.traceCap (s.trace.length + 1) ∧
      ∃ (e : ExecEntry) (dropped : List TraceEntry), s.trace ++ [.exec e] = dropped ++ t.trace ∧
        e.pcBefore = s.pc ∧ e.opcode = s.load s.pc ∧ e.ins = (fetchInstr cfg.opcodeMap s).map Instr.mnemonic ∧
        e.operand = (fetchInstr cfg.opcodeMap s).bind Instr.operand ∧ e.before = s.view ∧ e.after = t.view ∧
        e.pcAfter = t.pc ∧ e.halt = t.halted)

/-- The core's invariant holds at reset, and after every `load` in any state (10_state.md R40, 70_reset_and_hazards.md R250). -/
def Obligations.InvHoldsAfterReset : Prop :=
  (∀ cfg : Config, State.reset.Inv cfg) ∧
  ∀ (cfg : Config) (image : List Byte) (start : Nat) (s : State), (loadImage image start s).Inv cfg

/-- Every step keeps the core's invariant, under every configuration (60_exceptions.md R203, R210 to R212; 10_state.md R33): memory stays canonical, the trace stays within its
capacity and stays a connected record of the steps, and the core is halted exactly when it has a cause. -/
def Obligations.EveryStepKeepsTheInvariant : Prop :=
  ∀ (cfg : Config) (s t : State), s.Inv cfg → engineStep cfg s = .next t → t.Inv cfg

/-- Every host command keeps the session's invariant (10_state.md R43, 60_exceptions.md R220). -/
def Obligations.EveryHostCommandKeepsTheInvariant : Prop :=
  (∀ cfg : Config, Session.constructed.Inv cfg) ∧
  ∀ (cfg : Config) (cmd : Command) (q r : Session) (rep : Report), q.Inv cfg →
    hostCommand cfg cmd q = .next (r, rep) → r.Inv cfg

/-- 20_memory.md R53: a memory write sets its cell, whose address is taken mod 256, "and changes no other cell"; it touches neither `lastWrite` nor `watchHit`, which of
the instructions only `STA_MEM` writes. -/
def Obligations.MemWriteSetsOneCell : Prop :=
  (∀ (s : State) (n v : Nat), s.mem.wf = true →
    ∃ t, t = s.store (wrapAddr n) (BitVec.ofNat 8 v) ∧ t = { s with mem := t.mem } ∧
      ∀ x : Byte, (t.load x).toNat = if x.toNat = n % 256 then v % 256 else (s.load x).toNat) ∧
  ∀ (i : Instr) (s t : State), exec i s = .next t → i.mnemonic ≠ .STA_MEM → t.lastWrite = s.lastWrite ∧ t.watchHit = s.watchHit

/-- The model's memory is canonical data (log entry 4): two canonical memories that read alike are equal, writes keep the form and so commute at different addresses,
and writing back what a cell holds changes nothing (20_memory.md R53, R57). -/
def Obligations.MemoriesThatReadAlikeAreEqual : Prop :=
  (∀ m n : Memory, m.wf = true → n.wf = true → (∀ x, m.read x = n.read x) → m = n) ∧
  (∀ (m : Memory) (x y v w : Byte), m.wf = true → x ≠ y → (m.write x v).write y w = (m.write y w).write x v) ∧
  (∀ (m : Memory) (x v w : Byte), m.wf = true → m.write x (m.read x) = m ∧ (m.write x v).write x w = m.write x w)

/-! ## Reset and the host interface -/

/-- 70_reset_and_hazards.md R250, R252, R253 (`lastWrite`, `watchHit` and `WP` by decision D8, the overwrite order by D19): `load` leaves the reset values, an image byte
in each cell it was copied to last, and 0 in every other; it depends on nothing of the earlier state but `WP`. The command's `start` is 0 where it is omitted
(00_scope.md R7, R251). -/
def Obligations.LoadResetsAndCopiesTheImage : Prop :=
  ∀ (image : List Byte) (start : Nat) (s : State),
    (∃ t, t = loadImage image start s ∧
      t = { State.reset with pc := BitVec.ofNat 8 start, mem := t.mem, wp := s.wp } ∧
      (∀ j (hj : j < image.length), (∀ l, j < l → l < image.length → BitVec.ofNat 8 (start + l) ≠ BitVec.ofNat 8 (start + j)) →
        t.mem.read (BitVec.ofNat 8 (start + j)) = image[j]) ∧
      (∀ x, (∀ j, j < image.length → BitVec.ofNat 8 (start + j) ≠ x) → t.mem.read x = 0)) ∧
    State.reset = loadImage [] 0 State.reset ∧
    ∀ (cfg : Config) (q : Session), q.core = s →
      (∃ r, hostCommand cfg (.load image (some start)) q = .next (r, .done) ∧ r.core = loadImage image start s ∧ r.start = start) ∧
      (∃ r, hostCommand cfg (.load image) q = .next (r, .done) ∧ r.core = loadImage image 0 s ∧ r.core.pc = 0 ∧ r.start = 0)

/-- 60_exceptions.md R222, R214 (and 10_state.md R33, R42): restore overwrites the snapshot's components, sets the ghost cause from `halted`, appends one rollback entry within the
trace capacity, and leaves `WP` and `watchHit`. -/
def Obligations.RestoreOverwritesTheSnapshotComponents : Prop :=
  ∀ (cap : Nat) (p : Snapshot) (s : State),
    ({ capture (restore cap p s) with trace := p.trace } : Snapshot) = p ∧
    (restore cap p s).trace.length = min cap (p.trace.length + 1) ∧
    (∃ dropped, p.trace ++ [.rollback] = dropped ++ (restore cap p s).trace) ∧
    (restore cap p s).wp = s.wp ∧ (restore cap p s).watchHit = s.watchHit ∧
    (restore cap p s).haltCause = if p.halted = true then .haltInstr else .none

/-- 60_exceptions.md R224: after `n` executing steps, `n` at most the history capacity, `n` step-backs leave every snapshot component as it was, but for one trailing
rollback entry in the trace, and leave `WP` and `watchHit` as the steps left them. -/
def Obligations.StepBacksUndoStepsExactly : Prop :=
  ∀ (cfg : Config) (n : Nat) (q r : Session), q.loaded = true → 1 ≤ n → n ≤ cfg.historyCap →
    sessionSteps cfg n q = .next r →
    (∀ k u, k < n → sessionSteps cfg k q = .next u → u.core.halted = false) →
    ∃ u, sessionStepBacks cfg n r = .next u ∧
      capture u.core = { capture q.core with trace := trimTrace cfg.traceCap (q.core.trace ++ [.rollback]) } ∧
      u.core.wp = r.core.wp ∧ u.core.watchHit = r.core.watchHit ∧ u.history = q.history.take (cfg.historyCap - n)

/-- 60_exceptions.md R228, R202: a batch of a loaded session is a run of at most `BATCH_STEPS` steps, stopped before a step at the breakpoint, or after a step by the
watch-hit (reported and cleared) in preference to the halt, and by nothing else. From a running core it pushes the snapshot of the state before each step. -/
def Obligations.BatchRunsStepsUntilAStop : Prop :=
  ∀ (cfg : Config) (q : Session), q.loaded = true →
    ∃ (r : Session) (why : Option BatchStop) (n : Nat) (t : State),
      q.runBatch cfg = .next (r, .batch why) ∧ n ≤ cfg.batchSteps ∧ engineRun cfg n q.core = .next t ∧
      (∀ k u, k < n → engineRun cfg k q.core = .next u →
        q.bp ≠ some u.pc ∧ (0 < k → u.watchHit = false ∧ u.halted = false)) ∧
      (n = 0 → r.history = q.history) ∧
      (0 < n → q.core.halted = false → ∃ pushed : List Snapshot, pushed.length = n ∧
        r.history = (pushed.reverse ++ q.history).take cfg.historyCap ∧
        ∀ k u, k < n → engineRun cfg k q.core = .next u → pushed[k]? = some (capture u)) ∧
      match why with
      | some .breakpoint => q.bp = some t.pc ∧ n < cfg.batchSteps ∧ r.core = t ∧ r.events = q.events ++ [.breakAt t.pc] ∧ (0 < n → t.watchHit = false ∧ t.halted = false)
      | some .watchHit => 0 < n ∧ t.watchHit = true ∧ r.core = t.setWatchHit false ∧ r.events = q.events ++ [.watch t.lastWrite]
      | some .halted => 0 < n ∧ t.watchHit = false ∧ t.halted = true ∧ r.core = t ∧ r.events = q.events
      | none => n = cfg.batchSteps ∧ r.core = t ∧ r.events = q.events ∧ (0 < n → t.watchHit = false ∧ t.halted = false)

/-- 60_exceptions.md R229, R221: `stepOnce` of a loaded session runs exactly one step whatever the breakpoint, pushes the snapshot of the state before it, reports the
watch-hit and, where there is one, logs it and clears the latch. (Before a no-op step of a halted core the push is unconstrained: U8.) -/
def Obligations.StepOncePassesTheBreakpoint : Prop :=
  ∀ (cfg : Config) (q : Session) (b : Option Byte), q.loaded = true →
    ∃ (r : Session) (t : State), engineStep cfg q.core = .next t ∧
      ({ q with bp := b } : Session).stepOnce cfg = .next (r, .stepped t.watchHit) ∧
      r.core = t.setWatchHit false ∧ r.bp = b ∧
      r.events = (if t.watchHit = true then q.events ++ [.watch t.lastWrite] else q.events) ∧
      (q.core.halted = false → r.history = (capture q.core :: q.history).take cfg.historyCap)

/-- 60_exceptions.md R225, R226, R235 (the forms of the text and the rejection of a bad one are decision D18): a host edit writes one cell, or `WP`, or `BP`, and nothing
else; a text that is no number of its range is rejected with no change. -/
def Obligations.HostEditsWriteOneThing : Prop :=
  ∀ (cfg : Config) (q : Session) (text : List Char) (addr : Nat), q.core.mem.wf = true →
    (∀ v, parseNumber text = some v → v < 256 →
      ∃ r, hostCommand cfg (.setMemoryByte addr text) q = .next (r, .accepted true) ∧
        r = { q with core := { q.core with mem := r.core.mem } } ∧
        ∀ x, r.core.mem.read x = if x = BitVec.ofNat 8 addr then BitVec.ofNat 8 v else q.core.mem.read x) ∧
    (∀ v, parseNumber text = some v → 256 ≤ v → hostCommand cfg (.setMemoryByte addr text) q = .next (q, .accepted false)) ∧
    (∀ v, parseNumber text = some v →
      hostCommand cfg (.setWatchpoint (some text)) q =
        .next ({ q with core := { q.core with wp := some (BitVec.ofNat 8 v) } }, .accepted true) ∧
      hostCommand cfg (.setBreakpoint (some text)) q = .next ({ q with bp := some (BitVec.ofNat 8 v) }, .accepted true)) ∧
    (parseNumber text = none → hostCommand cfg (.setMemoryByte addr text) q = .next (q, .accepted false) ∧
      (text ≠ [] → hostCommand cfg (.setWatchpoint (some text)) q = .next (q, .accepted false) ∧
        hostCommand cfg (.setBreakpoint (some text)) q = .next (q, .accepted false))) ∧
    hostCommand cfg (.setWatchpoint none) q = .next ({ q with core := { q.core with wp := none } }, .accepted true) ∧
    hostCommand cfg (.setWatchpoint (some [])) q = .next ({ q with core := { q.core with wp := none } }, .accepted true) ∧
    hostCommand cfg (.setBreakpoint none) q = .next ({ q with bp := none }, .accepted true) ∧
    hostCommand cfg (.setBreakpoint (some [])) q = .next ({ q with bp := none }, .accepted true)

/-- 10_state.md R32, R34, 60_exceptions.md R227, R263 (decisions D8, D9): of the host's commands only `setWatchpoint` changes `WP`, and only the controller's clear, alone or in its
report of a hit, and a `load` lower the watch-hit. -/
def Obligations.OnlyTheControllerMovesTheWatchpoint : Prop :=
  ∀ (cfg : Config) (cmd : Command) (q r : Session) (rep : Report), hostCommand cfg cmd q = .next (r, rep) →
    (r.core.wp ≠ q.core.wp → ∃ text, cmd = .setWatchpoint text) ∧
    (q.core.watchHit = true → r.core.watchHit = false →
      (∃ image start, cmd = .load image start) ∨ cmd ∈ [.reset, .clearWatchHit, .stepOnce, .runBatch, .tick])

/-- 10_state.md R41 (decision D7): before the first `load` no step and no read of the core's state is admitted, nor the tick of an active cadence, which steps. -/
def Obligations.NoStepBeforeTheFirstLoad : Prop :=
  ∀ (cfg : Config) (q : Session), q.loaded = false →
    (∀ cmd, cmd ∈ [.step, .stepOnce, .runBatch, .inspect] → hostCommand cfg cmd q = .refused .beforeFirstLoad) ∧
    (∀ addr count, hostCommand cfg (.disassemble addr count) q = .refused .beforeFirstLoad) ∧
    (q.cadence = true → hostCommand cfg .tick q = .refused .beforeFirstLoad) ∧
    ∀ image start, ∃ r, hostCommand cfg (.load image start) q = .next (r, .done) ∧ r.loaded = true

/-! ## The assembler -/

/-- 30_encoding.md R97: assembly "never mutates machine state", and a failed one leaves the program loaded as it was. That a successful one changes the host's record of
the last-assembled image, and nothing else, is for 60_exceptions.md R236 and log entry 19. -/
def Obligations.AssemblyNeverMutatesTheMachine : Prop :=
  ∀ (cfg : Config) (src : List Char) (q : Session),
    ∃ r rep, hostCommand cfg (.assemble src) q = .next (r, rep) ∧ r.core = q.core ∧ r.history = q.history ∧
      (∀ e, assemble cfg src = .error e → r = q ∧ rep = .assemblyFailed e) ∧
      (∀ image, assemble cfg src = .ok image → r = { q with program := some image } ∧ rep = .assembled image)

/-- 30_encoding.md R98: an assembly error carries the 1-based number of a line of the source, and `UnknownOpcode`, which has no cause, is never raised. -/
def Obligations.AssemblyErrorsNameALine : Prop :=
  ∀ (cfg : Config) (src : List Char) (e : AsmError), assemble cfg src = .error e →
    e.kind ≠ .unknownOpcode ∧ 1 ≤ e.line ∧ e.line ≤ (splitLines src).length

/-- 30_encoding.md R93, R96, R100, R101: a label's value is the byte offset, mod 256, of the instruction bytes that the lines before it emit. -/
def Obligations.LabelsAreByteOffsets : Prop :=
  ∀ (m : OpcodeMap) (before after : List (Nat × SourceLine)) (n : Nat) (name : List Char) (p : List Instr) (cs labels : Symbols),
    constantPass (before ++ (n, .label name) :: after) [] = .ok cs →
    labelPass (before ++ (n, .label name) :: after) 0 [] = .ok labels →
    emissionPass cs labels (before ++ (n, .label name) :: after) = .ok p →
    ∃ q r, p = q ++ r ∧ emissionPass cs labels before = .ok q ∧ emissionPass cs labels after = .ok r ∧
      labels.lookup name = some (BitVec.ofNat 8 (encodeProgram m q).length)

/-- 30_encoding.md R91, R95: mnemonics match case-insensitively and each name is its own mnemonic's; an operand token is a literal first, then a constant, then a label, and is
masked to 8 bits. -/
def Obligations.OperandsResolveInOrder : Prop :=
  (∀ (mn : Mnemonic) (t : List Char), mnemonicOfName (mnemonicName mn) = some mn ∧
    mnemonicOfName (t.map upperChar) = mnemonicOfName t) ∧
  ∀ (cs labels : Symbols) (t : List Char),
    (∀ v, parseNumber t = some v → resolveOperand cs labels t = some (BitVec.ofNat 8 v)) ∧
    (∀ v, parseNumber t = none → cs.lookup t = some v → resolveOperand cs labels t = some v) ∧
    (∀ v, parseNumber t = none → cs.lookup t = none → labels.lookup t = some v → resolveOperand cs labels t = some v) ∧
    (parseNumber t = none → cs.lookup t = none → labels.lookup t = none → resolveOperand cs labels t = none)

/-! ## What the host reads and reloads -/

/-- 20_memory.md R66, 60_exceptions.md R220 (that it waits for the first load is decision D7): an inspection of a loaded session reports every component of the core as it is,
and any number of disassembly records from any address, and changes nothing. -/
def Obligations.InspectionReadsTheWholeState : Prop :=
  ∀ (cfg : Config) (q : Session), q.loaded = true →
    (∃ i, hostCommand cfg .inspect q = .next (q, .inspected i) ∧ i.pc = q.core.pc ∧ i.a = q.core.a ∧ i.b = q.core.b ∧ i.sp = q.core.sp ∧
      i.z = q.core.z ∧ i.c = q.core.c ∧ (∀ x, i.mem.read x = q.core.load x) ∧ i.halted = q.core.halted ∧ i.out = q.core.out ∧
      i.lastWrite = q.core.lastWrite ∧ i.trace = q.core.trace ∧ i.wp = q.core.wp ∧ i.watchHit = q.core.watchHit) ∧
    ∀ addr count, ∃ ls, hostCommand cfg (.disassemble addr count) q = .next (q, .listed ls) ∧ ls.length = count ∧
      ∀ l, ls.head? = some l → l = disassembleAt cfg.opcodeMap q.core.mem (wrapAddr addr)

/-- 60_exceptions.md R236 (the `start` is decision D27; that it is refused where no image has been assembled is log entry 19): `reset()` loads the image last assembled,
whatever other images were loaded since, with the `start` of the last `load`, and empties the history. -/
def Obligations.ResetReloadsTheLastAssembledImage : Prop :=
  (∀ (cfg : Config) (q : Session) (src : List Char) (image : List Byte) (others : List (List Byte × Option Nat)) (last : List Byte) (start : Option Nat),
    assemble cfg src = .ok image →
    ∃ u r, hostCommands cfg (.assemble src :: (others.map fun x => .load x.1 x.2) ++ [.load last start]) q = .next u ∧
      hostCommand cfg .reset u = .next (r, .done) ∧ r.core = loadImage image (startAddress start) u.core ∧ r.loaded = true ∧ r.history = [] ∧
      r.program = some image ∧ r.start = startAddress start ∧ r.bp = q.bp) ∧
  ∀ (cfg : Config) (q : Session), q.program = none → hostCommand cfg .reset q = .refused .noAssembledImage
end

