-- ==== Sys2Proof/Laws/Decode.lean ====
section
/-! SUPPORT. Laws/Decode.lean: the small lemmas of the opcode map, the decoder and the encoder. -/

namespace Sys2Proof

theorem Mnemonic.mem_all (mn : Mnemonic) : mn ∈ Mnemonic.all := by cases mn <;> decide

/-- A map is well formed exactly when it is injective (30_encoding.md R78). -/
theorem OpcodeMap.wf_iff (m : OpcodeMap) : m.wf = true ↔ ∀ x y : Mnemonic, m x = m y → x = y := by
  unfold OpcodeMap.wf
  simp only [List.all_eq_true, Bool.or_eq_true, beq_iff_eq, bne_iff_ne]
  constructor
  · intro h x y hxy
    exact (h x x.mem_all y y.mem_all).resolve_right (fun hne => hne hxy)
  · intro h x _ y _
    by_cases hxy : m x = m y
    · exact .inl (h x y hxy)
    · exact .inr hxy

theorem defaultOpcodeMap_wf : OpcodeMap.wf defaultOpcodeMap = true := by decide

@[simp] theorem defaultConfig_opcodeMap : defaultConfig.opcodeMap = defaultOpcodeMap := rfl

/-- Where the look-up answers, the byte is that mnemonic's. -/
theorem mnemonicOf_eq_some {m : OpcodeMap} {op : Byte} {mn : Mnemonic} (h : mnemonicOf m op = some mn) : m mn = op := by
  have := List.find?_some h
  simpa using this

/-- Under an injective map the look-up of a mnemonic's byte answers that mnemonic. -/
theorem mnemonicOf_map {m : OpcodeMap} (hm : m.wf = true) (mn : Mnemonic) : mnemonicOf m (m mn) = some mn := by
  cases h : mnemonicOf m (m mn) with
  | none =>
    have := List.find?_eq_none.1 h mn mn.mem_all
    simp at this
  | some x => rw [(OpcodeMap.wf_iff m).1 hm x mn (mnemonicOf_eq_some h)]

/-- A byte is unrecognized exactly when no mnemonic has it. -/
theorem mnemonicOf_eq_none (m : OpcodeMap) (op : Byte) : mnemonicOf m op = none ↔ ∀ mn, m mn ≠ op := by
  unfold mnemonicOf
  rw [List.find?_eq_none]
  simp only [beq_iff_eq]
  exact ⟨fun h mn => h mn mn.mem_all, fun h mn _ => h mn⟩

@[simp] theorem Mnemonic.instr_mnemonic (mn : Mnemonic) (k : Byte) : (mn.instr k).mnemonic = mn := by cases mn <;> rfl

theorem Mnemonic.instr_operand (mn : Mnemonic) (k : Byte) : (mn.instr k).operand = if mn.size = 2 then some k else none := by
  cases mn <;> rfl

@[simp] theorem Mnemonic.instr_size (mn : Mnemonic) (k : Byte) : (mn.instr k).size = mn.size := by
  rw [Instr.size, Mnemonic.instr_mnemonic]

theorem Mnemonic.size_eq (mn : Mnemonic) : mn.size = 1 ∨ mn.size = 2 := by cases mn <;> simp [Mnemonic.size]

/-- An instruction is its mnemonic with its operand byte. -/
theorem Instr.eq_instr (i : Instr) (k : Byte) (h : ∀ j, i.operand = some j → k = j) : i.mnemonic.instr k = i := by
  cases i <;> simp [Instr.mnemonic, Mnemonic.instr, Instr.operand] at * <;> exact h

theorem Instr.size_eq (i : Instr) : i.size = 1 + i.operand.toList.length := by cases i <;> rfl

/-- Every instruction is well formed, by the types of its fields. -/
theorem Instr.wf_all (i : Instr) : i.wf = true := by cases i <;> rfl

/-- The record of an instruction is well formed under an injective map. -/
theorem Instr.listing_wf {m : OpcodeMap} (hm : m.wf = true) (i : Instr) : (i.listing m).wf m = true := by
  have h : i.operand.isSome = (i.mnemonic.size == 2) := by simpa [Instr.wf, Instr.size] using i.wf_all
  simp [Listing.wf, Listing.insOk, Listing.sizeOk, Listing.operandOk, Instr.listing, mnemonicOf_map hm, Instr.size, h]

theorem decodeOp_eq_none (m : OpcodeMap) (op k : Byte) : decodeOp m op k = none ↔ mnemonicOf m op = none := by
  simp [decodeOp]

/-- Where the decoder answers, the instruction's bytes are the bytes given. -/
theorem decodeOp_eq_some {m : OpcodeMap} {op k : Byte} {i : Instr} (h : decodeOp m op k = some i) :
    mnemonicOf m op = some i.mnemonic ∧ m i.mnemonic = op ∧ i.operand = (if i.size = 2 then some k else none) := by
  simp only [decodeOp, Option.map_eq_some_iff] at h
  obtain ⟨mn, h1, rfl⟩ := h
  rw [Mnemonic.instr_mnemonic, Mnemonic.instr_operand, Mnemonic.instr_size]
  exact ⟨h1, mnemonicOf_eq_some h1, rfl⟩

/-- The decoder reads an instruction from its bytes. -/
theorem decodeOp_encoded {m : OpcodeMap} (hm : m.wf = true) (i : Instr) (k : Byte) (h : ∀ j, i.operand = some j → k = j) :
    decodeOp m (m i.mnemonic) k = some i := by
  rw [decodeOp, mnemonicOf_map hm, Option.map_some, Instr.eq_instr i k h]

/-- An instruction's bytes are as many as its size (30_encoding.md R70). -/
@[simp] theorem encodeWith_length (m : OpcodeMap) (i : Instr) : (encodeWith m i).length = i.size := by
  rw [Instr.size_eq, encodeWith, List.length_cons, Nat.add_comm]

@[simp] theorem encodeProgram_nil (m : OpcodeMap) : encodeProgram m [] = [] := rfl

theorem encodeProgram_cons (m : OpcodeMap) (i : Instr) (p : List Instr) :
    encodeProgram m (i :: p) = encodeWith m i ++ encodeProgram m p := rfl

end Sys2Proof
end

