-- ==== Sys2Proof/Laws/Assembler.lean ====
section
/-! SUPPORT. Laws/Assembler.lean: small lemmas of the assembler's parts. -/

namespace Sys2Proof.Machine

/-- Lines are numbered from the first number on. -/
theorem numberFrom_bounds (n : Nat) (ls : List SourceLine) : ∀ x ∈ numberFrom n ls, n ≤ x.1 ∧ x.1 < n + ls.length := by
  induction ls generalizing n with
  | nil => simp [numberFrom]
  | cons l ls ih =>
    intro x hx
    simp only [numberFrom, List.mem_cons] at hx
    rcases hx with rfl | hx
    · simp
    · have := ih _ x hx
      simp; omega

/-- Upper case of upper case is upper case. -/
@[simp] theorem upperChar_upperChar (c : Char) : upperChar (upperChar c) = upperChar c := by
  unfold upperChar
  by_cases h : 97 ≤ c.toNat ∧ c.toNat ≤ 122
  · rw [if_pos h]
    have : (Char.ofNat (c.toNat - 32)).toNat = c.toNat - 32 := by
      rw [Char.toNat_ofNat, if_pos]
      unfold Nat.isValidChar; omega
    rw [this, if_neg (by omega)]
  · rw [if_neg h, if_neg h]

/-- The instruction of a line has the size of the line's mnemonic, by which the label pass advances. -/
theorem instructionOfLine_size {cs labels : Symbols} {n : Nat} {head : List Char} {args : List (List Char)} {i : Instr} {mn : Mnemonic}
    (h : instructionOfLine cs labels n head args = .ok i) (hm : mnemonicOfName head = some mn) : i.size = mn.size := by
  unfold instructionOfLine at h
  rw [hm] at h
  dsimp only at h
  (repeat' split at h) <;> cases h <;> simp

/-- An error of a line carries the line's number. -/
theorem instructionOfLine_error {cs labels : Symbols} {n : Nat} {head : List Char} {args : List (List Char)} {e : AsmError}
    (h : instructionOfLine cs labels n head args = .error e) : e.kind ≠ .unknownOpcode ∧ e.line = n := by
  unfold instructionOfLine at h
  (repeat' split at h) <;> cases h <;> simp

/-- A name defined stays defined where definitions are added after it. -/
theorem lookup_append_of_some {l x : Symbols} {name : List Char} {v : Byte} (h : l.lookup name = some v) : (l ++ x).lookup name = some v := by
  rw [List.lookup_append, h]; rfl

end Sys2Proof.Machine
end

