-- ==== Sys2Proof/Laws/Memory.lean ====
section
/-! SUPPORT. Laws/Memory.lean: what the memory operations do: a write is read back and changes no other cell, every operation keeps the canonical
form, and a canonical memory is determined by what its cells read as. -/

namespace Sys2Proof.Machine

@[simp] theorem Memory.read_nil (x : Byte) : Memory.read [] x = 0 := rfl

/-- A read at a cell's number. -/
theorem Memory.read_entry (k : Nat) (v : Byte) (m : Memory) (x : Byte) :
    Memory.read ((k, v) :: m) x = if k = x.toNat then v else Memory.read m x := rfl

theorem Memory.wfFrom_nil (lo : Nat) : Memory.wfFrom lo [] = true := rfl

theorem Memory.wfFrom_entry (lo k : Nat) (v : Byte) (m : Memory) :
    Memory.wfFrom lo ((k, v) :: m) = true ↔ lo ≤ k ∧ k < 256 ∧ v ≠ 0 ∧ Memory.wfFrom (k + 1) m = true := by
  simp [Memory.wfFrom, unlistedByte, and_assoc]

theorem Memory.wfFrom_mono {lo hi : Nat} (h : lo ≤ hi) {m : Memory} (hm : Memory.wfFrom hi m = true) :
    Memory.wfFrom lo m = true := by
  cases m with
  | nil => rfl
  | cons e m => obtain ⟨k, v⟩ := e; rw [Memory.wfFrom_entry] at *; exact ⟨by omega, hm.2⟩

/-- Below its first key a canonical memory reads as 0. -/
theorem Memory.read_below {lo : Nat} {m : Memory} (hm : Memory.wfFrom lo m = true) {x : Byte} (hx : x.toNat < lo) :
    Memory.read m x = 0 := by
  induction m generalizing lo with
  | nil => rfl
  | cons e m ih =>
    obtain ⟨k, v⟩ := e
    rw [Memory.wfFrom_entry] at hm
    rw [Memory.read_entry, if_neg (by omega)]
    exact ih hm.2.2.2 (by omega)

theorem Memory.read_cons (k : Nat) (v : Byte) {m : Memory} (hm : Memory.wfFrom (k + 1) m = true) (x : Byte) :
    Memory.read (Memory.cons k v m) x = if k = x.toNat then v else Memory.read m x := by
  unfold Memory.cons unlistedByte
  split
  · next hv =>
    split
    · next hk => rw [hv]; exact Memory.read_below hm (by omega)
    · rfl
  · rfl

theorem Memory.wfFrom_cons {lo k : Nat} (hlo : lo ≤ k) (hk : k < 256) (v : Byte) {m : Memory}
    (hm : Memory.wfFrom (k + 1) m = true) : Memory.wfFrom lo (Memory.cons k v m) = true := by
  unfold Memory.cons unlistedByte
  split
  · exact Memory.wfFrom_mono (by omega) hm
  · next hv => exact (Memory.wfFrom_entry ..).2 ⟨hlo, hk, hv, hm⟩

theorem Memory.put_spec {lo : Nat} {m : Memory} (hm : Memory.wfFrom lo m = true) {k : Nat} (hlo : lo ≤ k) (hk : k < 256) (v : Byte) :
    Memory.wfFrom lo (Memory.put m k v) = true ∧
    ∀ x : Byte, Memory.read (Memory.put m k v) x = if k = x.toNat then v else Memory.read m x := by
  induction m generalizing lo with
  | nil =>
    exact ⟨Memory.wfFrom_cons hlo hk v rfl, Memory.read_cons k v rfl⟩
  | cons e m ih =>
    obtain ⟨j, w⟩ := e
    have hm' := (Memory.wfFrom_entry ..).1 hm
    obtain ⟨h1, h2, h3, h4⟩ := hm'
    unfold Memory.put
    split
    · next hlt =>
      have hj : Memory.wfFrom (k + 1) ((j, w) :: m) = true := (Memory.wfFrom_entry ..).2 ⟨by omega, h2, h3, h4⟩
      exact ⟨Memory.wfFrom_cons hlo hk v hj, Memory.read_cons k v hj⟩
    · split
      · next heq =>
        subst heq
        refine ⟨Memory.wfFrom_cons hlo hk v h4, fun x => ?_⟩
        rw [Memory.read_cons k v h4, Memory.read_entry]
        split <;> rfl
      · next hlt hne =>
        obtain ⟨ih1, ih2⟩ := ih h4 (by omega)
        refine ⟨(Memory.wfFrom_entry ..).2 ⟨h1, h2, h3, ih1⟩, fun x => ?_⟩
        rw [Memory.read_entry, Memory.read_entry, ih2]
        split
        · next hjx => rw [if_neg (by omega)]
        · rfl

/-- Every write keeps the canonical form. -/
theorem Memory.write_wf {m : Memory} (hm : m.wf = true) (x v : Byte) : (m.write x v).wf = true :=
  (Memory.put_spec hm (Nat.zero_le _) x.isLt v).1

/-- A write is read back, and changes no other cell (20_memory.md R53). -/
theorem Memory.read_write {m : Memory} (hm : m.wf = true) (x v y : Byte) :
    (m.write x v).read y = if x = y then v else m.read y := by
  rw [Memory.write, (Memory.put_spec hm (Nat.zero_le _) x.isLt v).2]
  simp [BitVec.toNat_inj]

@[simp] theorem Memory.read_write_same {m : Memory} (hm : m.wf = true) (x v : Byte) : (m.write x v).read x = v := by
  rw [Memory.read_write hm, if_pos rfl]

theorem Memory.read_write_other {m : Memory} (hm : m.wf = true) {x y : Byte} (v : Byte) (h : x ≠ y) :
    (m.write x v).read y = m.read y := by
  rw [Memory.read_write hm, if_neg h]

@[simp] theorem Memory.wf_nil : Memory.wf [] = true := rfl

/-- The memory at reset is canonical. -/
theorem reset_mem_wf : State.reset.mem.wf = true := rfl

/-- The copy of an image keeps the canonical form. -/
theorem copyImage_wf {m : Memory} (hm : m.wf = true) (x : Byte) (image : List Byte) : (copyImage m x image).wf = true := by
  induction image generalizing m x with
  | nil => exact hm
  | cons v rest ih => exact ih (Memory.write_wf hm x v) (x + 1)

/-- A key from which a memory is canonical reads as its own entry. -/
theorem Memory.read_head {lo k : Nat} {v : Byte} {m : Memory} (h : Memory.wfFrom lo ((k, v) :: m) = true) :
    Memory.read ((k, v) :: m) (BitVec.ofNat 8 k) = v := by
  rw [Memory.wfFrom_entry] at h
  rw [Memory.read_entry, if_pos]
  rw [BitVec.toNat_ofNat, Nat.mod_eq_of_lt h.2.1]

end Sys2Proof.Machine
end

