-- ==== Sys2Proof/Laws/State.lean ====
section
/-! SUPPORT. Laws/State.lean: one lemma per field per update of State, each true by rfl, so that no later proof unfolds a record update. -/

namespace Sys2Proof.Machine

@[simp] theorem State.setPc_pc (s : State) (v : Byte) : (s.setPc v).pc = v := rfl
@[simp] theorem State.setPc_a (s : State) (v : Byte) : (s.setPc v).a = s.a := rfl
@[simp] theorem State.setPc_b (s : State) (v : Byte) : (s.setPc v).b = s.b := rfl
@[simp] theorem State.setPc_sp (s : State) (v : Byte) : (s.setPc v).sp = s.sp := rfl
@[simp] theorem State.setPc_z (s : State) (v : Byte) : (s.setPc v).z = s.z := rfl
@[simp] theorem State.setPc_c (s : State) (v : Byte) : (s.setPc v).c = s.c := rfl
@[simp] theorem State.setPc_mem (s : State) (v : Byte) : (s.setPc v).mem = s.mem := rfl
@[simp] theorem State.setPc_halted (s : State) (v : Byte) : (s.setPc v).halted = s.halted := rfl
@[simp] theorem State.setPc_out (s : State) (v : Byte) : (s.setPc v).out = s.out := rfl
@[simp] theorem State.setPc_lastWrite (s : State) (v : Byte) : (s.setPc v).lastWrite = s.lastWrite := rfl
@[simp] theorem State.setPc_trace (s : State) (v : Byte) : (s.setPc v).trace = s.trace := rfl
@[simp] theorem State.setPc_wp (s : State) (v : Byte) : (s.setPc v).wp = s.wp := rfl
@[simp] theorem State.setPc_watchHit (s : State) (v : Byte) : (s.setPc v).watchHit = s.watchHit := rfl
@[simp] theorem State.setPc_haltCause (s : State) (v : Byte) : (s.setPc v).haltCause = s.haltCause := rfl

@[simp] theorem State.setA_pc (s : State) (v : Byte) : (s.setA v).pc = s.pc := rfl
@[simp] theorem State.setA_a (s : State) (v : Byte) : (s.setA v).a = v := rfl
@[simp] theorem State.setA_b (s : State) (v : Byte) : (s.setA v).b = s.b := rfl
@[simp] theorem State.setA_sp (s : State) (v : Byte) : (s.setA v).sp = s.sp := rfl
@[simp] theorem State.setA_z (s : State) (v : Byte) : (s.setA v).z = s.z := rfl
@[simp] theorem State.setA_c (s : State) (v : Byte) : (s.setA v).c = s.c := rfl
@[simp] theorem State.setA_mem (s : State) (v : Byte) : (s.setA v).mem = s.mem := rfl
@[simp] theorem State.setA_halted (s : State) (v : Byte) : (s.setA v).halted = s.halted := rfl
@[simp] theorem State.setA_out (s : State) (v : Byte) : (s.setA v).out = s.out := rfl
@[simp] theorem State.setA_lastWrite (s : State) (v : Byte) : (s.setA v).lastWrite = s.lastWrite := rfl
@[simp] theorem State.setA_trace (s : State) (v : Byte) : (s.setA v).trace = s.trace := rfl
@[simp] theorem State.setA_wp (s : State) (v : Byte) : (s.setA v).wp = s.wp := rfl
@[simp] theorem State.setA_watchHit (s : State) (v : Byte) : (s.setA v).watchHit = s.watchHit := rfl
@[simp] theorem State.setA_haltCause (s : State) (v : Byte) : (s.setA v).haltCause = s.haltCause := rfl

@[simp] theorem State.setB_pc (s : State) (v : Byte) : (s.setB v).pc = s.pc := rfl
@[simp] theorem State.setB_a (s : State) (v : Byte) : (s.setB v).a = s.a := rfl
@[simp] theorem State.setB_b (s : State) (v : Byte) : (s.setB v).b = v := rfl
@[simp] theorem State.setB_sp (s : State) (v : Byte) : (s.setB v).sp = s.sp := rfl
@[simp] theorem State.setB_z (s : State) (v : Byte) : (s.setB v).z = s.z := rfl
@[simp] theorem State.setB_c (s : State) (v : Byte) : (s.setB v).c = s.c := rfl
@[simp] theorem State.setB_mem (s : State) (v : Byte) : (s.setB v).mem = s.mem := rfl
@[simp] theorem State.setB_halted (s : State) (v : Byte) : (s.setB v).halted = s.halted := rfl
@[simp] theorem State.setB_out (s : State) (v : Byte) : (s.setB v).out = s.out := rfl
@[simp] theorem State.setB_lastWrite (s : State) (v : Byte) : (s.setB v).lastWrite = s.lastWrite := rfl
@[simp] theorem State.setB_trace (s : State) (v : Byte) : (s.setB v).trace = s.trace := rfl
@[simp] theorem State.setB_wp (s : State) (v : Byte) : (s.setB v).wp = s.wp := rfl
@[simp] theorem State.setB_watchHit (s : State) (v : Byte) : (s.setB v).watchHit = s.watchHit := rfl
@[simp] theorem State.setB_haltCause (s : State) (v : Byte) : (s.setB v).haltCause = s.haltCause := rfl

@[simp] theorem State.setSp_pc (s : State) (v : Byte) : (s.setSp v).pc = s.pc := rfl
@[simp] theorem State.setSp_a (s : State) (v : Byte) : (s.setSp v).a = s.a := rfl
@[simp] theorem State.setSp_b (s : State) (v : Byte) : (s.setSp v).b = s.b := rfl
@[simp] theorem State.setSp_sp (s : State) (v : Byte) : (s.setSp v).sp = v := rfl
@[simp] theorem State.setSp_z (s : State) (v : Byte) : (s.setSp v).z = s.z := rfl
@[simp] theorem State.setSp_c (s : State) (v : Byte) : (s.setSp v).c = s.c := rfl
@[simp] theorem State.setSp_mem (s : State) (v : Byte) : (s.setSp v).mem = s.mem := rfl
@[simp] theorem State.setSp_halted (s : State) (v : Byte) : (s.setSp v).halted = s.halted := rfl
@[simp] theorem State.setSp_out (s : State) (v : Byte) : (s.setSp v).out = s.out := rfl
@[simp] theorem State.setSp_lastWrite (s : State) (v : Byte) : (s.setSp v).lastWrite = s.lastWrite := rfl
@[simp] theorem State.setSp_trace (s : State) (v : Byte) : (s.setSp v).trace = s.trace := rfl
@[simp] theorem State.setSp_wp (s : State) (v : Byte) : (s.setSp v).wp = s.wp := rfl
@[simp] theorem State.setSp_watchHit (s : State) (v : Byte) : (s.setSp v).watchHit = s.watchHit := rfl
@[simp] theorem State.setSp_haltCause (s : State) (v : Byte) : (s.setSp v).haltCause = s.haltCause := rfl

@[simp] theorem State.setZ_pc (s : State) (v : Bool) : (s.setZ v).pc = s.pc := rfl
@[simp] theorem State.setZ_a (s : State) (v : Bool) : (s.setZ v).a = s.a := rfl
@[simp] theorem State.setZ_b (s : State) (v : Bool) : (s.setZ v).b = s.b := rfl
@[simp] theorem State.setZ_sp (s : State) (v : Bool) : (s.setZ v).sp = s.sp := rfl
@[simp] theorem State.setZ_z (s : State) (v : Bool) : (s.setZ v).z = v := rfl
@[simp] theorem State.setZ_c (s : State) (v : Bool) : (s.setZ v).c = s.c := rfl
@[simp] theorem State.setZ_mem (s : State) (v : Bool) : (s.setZ v).mem = s.mem := rfl
@[simp] theorem State.setZ_halted (s : State) (v : Bool) : (s.setZ v).halted = s.halted := rfl
@[simp] theorem State.setZ_out (s : State) (v : Bool) : (s.setZ v).out = s.out := rfl
@[simp] theorem State.setZ_lastWrite (s : State) (v : Bool) : (s.setZ v).lastWrite = s.lastWrite := rfl
@[simp] theorem State.setZ_trace (s : State) (v : Bool) : (s.setZ v).trace = s.trace := rfl
@[simp] theorem State.setZ_wp (s : State) (v : Bool) : (s.setZ v).wp = s.wp := rfl
@[simp] theorem State.setZ_watchHit (s : State) (v : Bool) : (s.setZ v).watchHit = s.watchHit := rfl
@[simp] theorem State.setZ_haltCause (s : State) (v : Bool) : (s.setZ v).haltCause = s.haltCause := rfl

@[simp] theorem State.setC_pc (s : State) (v : Bool) : (s.setC v).pc = s.pc := rfl
@[simp] theorem State.setC_a (s : State) (v : Bool) : (s.setC v).a = s.a := rfl
@[simp] theorem State.setC_b (s : State) (v : Bool) : (s.setC v).b = s.b := rfl
@[simp] theorem State.setC_sp (s : State) (v : Bool) : (s.setC v).sp = s.sp := rfl
@[simp] theorem State.setC_z (s : State) (v : Bool) : (s.setC v).z = s.z := rfl
@[simp] theorem State.setC_c (s : State) (v : Bool) : (s.setC v).c = v := rfl
@[simp] theorem State.setC_mem (s : State) (v : Bool) : (s.setC v).mem = s.mem := rfl
@[simp] theorem State.setC_halted (s : State) (v : Bool) : (s.setC v).halted = s.halted := rfl
@[simp] theorem State.setC_out (s : State) (v : Bool) : (s.setC v).out = s.out := rfl
@[simp] theorem State.setC_lastWrite (s : State) (v : Bool) : (s.setC v).lastWrite = s.lastWrite := rfl
@[simp] theorem State.setC_trace (s : State) (v : Bool) : (s.setC v).trace = s.trace := rfl
@[simp] theorem State.setC_wp (s : State) (v : Bool) : (s.setC v).wp = s.wp := rfl
@[simp] theorem State.setC_watchHit (s : State) (v : Bool) : (s.setC v).watchHit = s.watchHit := rfl
@[simp] theorem State.setC_haltCause (s : State) (v : Bool) : (s.setC v).haltCause = s.haltCause := rfl

@[simp] theorem State.setMem_pc (s : State) (m : Memory) : (s.setMem m).pc = s.pc := rfl
@[simp] theorem State.setMem_a (s : State) (m : Memory) : (s.setMem m).a = s.a := rfl
@[simp] theorem State.setMem_b (s : State) (m : Memory) : (s.setMem m).b = s.b := rfl
@[simp] theorem State.setMem_sp (s : State) (m : Memory) : (s.setMem m).sp = s.sp := rfl
@[simp] theorem State.setMem_z (s : State) (m : Memory) : (s.setMem m).z = s.z := rfl
@[simp] theorem State.setMem_c (s : State) (m : Memory) : (s.setMem m).c = s.c := rfl
@[simp] theorem State.setMem_mem (s : State) (m : Memory) : (s.setMem m).mem = m := rfl
@[simp] theorem State.setMem_halted (s : State) (m : Memory) : (s.setMem m).halted = s.halted := rfl
@[simp] theorem State.setMem_out (s : State) (m : Memory) : (s.setMem m).out = s.out := rfl
@[simp] theorem State.setMem_lastWrite (s : State) (m : Memory) : (s.setMem m).lastWrite = s.lastWrite := rfl
@[simp] theorem State.setMem_trace (s : State) (m : Memory) : (s.setMem m).trace = s.trace := rfl
@[simp] theorem State.setMem_wp (s : State) (m : Memory) : (s.setMem m).wp = s.wp := rfl
@[simp] theorem State.setMem_watchHit (s : State) (m : Memory) : (s.setMem m).watchHit = s.watchHit := rfl
@[simp] theorem State.setMem_haltCause (s : State) (m : Memory) : (s.setMem m).haltCause = s.haltCause := rfl

@[simp] theorem State.setTrace_pc (s : State) (t : List TraceEntry) : (s.setTrace t).pc = s.pc := rfl
@[simp] theorem State.setTrace_a (s : State) (t : List TraceEntry) : (s.setTrace t).a = s.a := rfl
@[simp] theorem State.setTrace_b (s : State) (t : List TraceEntry) : (s.setTrace t).b = s.b := rfl
@[simp] theorem State.setTrace_sp (s : State) (t : List TraceEntry) : (s.setTrace t).sp = s.sp := rfl
@[simp] theorem State.setTrace_z (s : State) (t : List TraceEntry) : (s.setTrace t).z = s.z := rfl
@[simp] theorem State.setTrace_c (s : State) (t : List TraceEntry) : (s.setTrace t).c = s.c := rfl
@[simp] theorem State.setTrace_mem (s : State) (t : List TraceEntry) : (s.setTrace t).mem = s.mem := rfl
@[simp] theorem State.setTrace_halted (s : State) (t : List TraceEntry) : (s.setTrace t).halted = s.halted := rfl
@[simp] theorem State.setTrace_out (s : State) (t : List TraceEntry) : (s.setTrace t).out = s.out := rfl
@[simp] theorem State.setTrace_lastWrite (s : State) (t : List TraceEntry) : (s.setTrace t).lastWrite = s.lastWrite := rfl
@[simp] theorem State.setTrace_trace (s : State) (t : List TraceEntry) : (s.setTrace t).trace = t := rfl
@[simp] theorem State.setTrace_wp (s : State) (t : List TraceEntry) : (s.setTrace t).wp = s.wp := rfl
@[simp] theorem State.setTrace_watchHit (s : State) (t : List TraceEntry) : (s.setTrace t).watchHit = s.watchHit := rfl
@[simp] theorem State.setTrace_haltCause (s : State) (t : List TraceEntry) : (s.setTrace t).haltCause = s.haltCause := rfl

@[simp] theorem State.setWp_pc (s : State) (w : Option Byte) : (s.setWp w).pc = s.pc := rfl
@[simp] theorem State.setWp_a (s : State) (w : Option Byte) : (s.setWp w).a = s.a := rfl
@[simp] theorem State.setWp_b (s : State) (w : Option Byte) : (s.setWp w).b = s.b := rfl
@[simp] theorem State.setWp_sp (s : State) (w : Option Byte) : (s.setWp w).sp = s.sp := rfl
@[simp] theorem State.setWp_z (s : State) (w : Option Byte) : (s.setWp w).z = s.z := rfl
@[simp] theorem State.setWp_c (s : State) (w : Option Byte) : (s.setWp w).c = s.c := rfl
@[simp] theorem State.setWp_mem (s : State) (w : Option Byte) : (s.setWp w).mem = s.mem := rfl
@[simp] theorem State.setWp_halted (s : State) (w : Option Byte) : (s.setWp w).halted = s.halted := rfl
@[simp] theorem State.setWp_out (s : State) (w : Option Byte) : (s.setWp w).out = s.out := rfl
@[simp] theorem State.setWp_lastWrite (s : State) (w : Option Byte) : (s.setWp w).lastWrite = s.lastWrite := rfl
@[simp] theorem State.setWp_trace (s : State) (w : Option Byte) : (s.setWp w).trace = s.trace := rfl
@[simp] theorem State.setWp_wp (s : State) (w : Option Byte) : (s.setWp w).wp = w := rfl
@[simp] theorem State.setWp_watchHit (s : State) (w : Option Byte) : (s.setWp w).watchHit = s.watchHit := rfl
@[simp] theorem State.setWp_haltCause (s : State) (w : Option Byte) : (s.setWp w).haltCause = s.haltCause := rfl

@[simp] theorem State.setWatchHit_pc (s : State) (w : Bool) : (s.setWatchHit w).pc = s.pc := rfl
@[simp] theorem State.setWatchHit_a (s : State) (w : Bool) : (s.setWatchHit w).a = s.a := rfl
@[simp] theorem State.setWatchHit_b (s : State) (w : Bool) : (s.setWatchHit w).b = s.b := rfl
@[simp] theorem State.setWatchHit_sp (s : State) (w : Bool) : (s.setWatchHit w).sp = s.sp := rfl
@[simp] theorem State.setWatchHit_z (s : State) (w : Bool) : (s.setWatchHit w).z = s.z := rfl
@[simp] theorem State.setWatchHit_c (s : State) (w : Bool) : (s.setWatchHit w).c = s.c := rfl
@[simp] theorem State.setWatchHit_mem (s : State) (w : Bool) : (s.setWatchHit w).mem = s.mem := rfl
@[simp] theorem State.setWatchHit_halted (s : State) (w : Bool) : (s.setWatchHit w).halted = s.halted := rfl
@[simp] theorem State.setWatchHit_out (s : State) (w : Bool) : (s.setWatchHit w).out = s.out := rfl
@[simp] theorem State.setWatchHit_lastWrite (s : State) (w : Bool) : (s.setWatchHit w).lastWrite = s.lastWrite := rfl
@[simp] theorem State.setWatchHit_trace (s : State) (w : Bool) : (s.setWatchHit w).trace = s.trace := rfl
@[simp] theorem State.setWatchHit_wp (s : State) (w : Bool) : (s.setWatchHit w).wp = s.wp := rfl
@[simp] theorem State.setWatchHit_watchHit (s : State) (w : Bool) : (s.setWatchHit w).watchHit = w := rfl
@[simp] theorem State.setWatchHit_haltCause (s : State) (w : Bool) : (s.setWatchHit w).haltCause = s.haltCause := rfl

@[simp] theorem State.advance_pc (s : State) (n : Nat) : (s.advance n).pc = s.pc + wrapAddr n := rfl
@[simp] theorem State.advance_a (s : State) (n : Nat) : (s.advance n).a = s.a := rfl
@[simp] theorem State.advance_b (s : State) (n : Nat) : (s.advance n).b = s.b := rfl
@[simp] theorem State.advance_sp (s : State) (n : Nat) : (s.advance n).sp = s.sp := rfl
@[simp] theorem State.advance_z (s : State) (n : Nat) : (s.advance n).z = s.z := rfl
@[simp] theorem State.advance_c (s : State) (n : Nat) : (s.advance n).c = s.c := rfl
@[simp] theorem State.advance_mem (s : State) (n : Nat) : (s.advance n).mem = s.mem := rfl
@[simp] theorem State.advance_halted (s : State) (n : Nat) : (s.advance n).halted = s.halted := rfl
@[simp] theorem State.advance_out (s : State) (n : Nat) : (s.advance n).out = s.out := rfl
@[simp] theorem State.advance_lastWrite (s : State) (n : Nat) : (s.advance n).lastWrite = s.lastWrite := rfl
@[simp] theorem State.advance_trace (s : State) (n : Nat) : (s.advance n).trace = s.trace := rfl
@[simp] theorem State.advance_wp (s : State) (n : Nat) : (s.advance n).wp = s.wp := rfl
@[simp] theorem State.advance_watchHit (s : State) (n : Nat) : (s.advance n).watchHit = s.watchHit := rfl
@[simp] theorem State.advance_haltCause (s : State) (n : Nat) : (s.advance n).haltCause = s.haltCause := rfl

@[simp] theorem State.store_pc (s : State) (x v : Byte) : (s.store x v).pc = s.pc := rfl
@[simp] theorem State.store_a (s : State) (x v : Byte) : (s.store x v).a = s.a := rfl
@[simp] theorem State.store_b (s : State) (x v : Byte) : (s.store x v).b = s.b := rfl
@[simp] theorem State.store_sp (s : State) (x v : Byte) : (s.store x v).sp = s.sp := rfl
@[simp] theorem State.store_z (s : State) (x v : Byte) : (s.store x v).z = s.z := rfl
@[simp] theorem State.store_c (s : State) (x v : Byte) : (s.store x v).c = s.c := rfl
@[simp] theorem State.store_mem (s : State) (x v : Byte) : (s.store x v).mem = s.mem.write x v := rfl
@[simp] theorem State.store_halted (s : State) (x v : Byte) : (s.store x v).halted = s.halted := rfl
@[simp] theorem State.store_out (s : State) (x v : Byte) : (s.store x v).out = s.out := rfl
@[simp] theorem State.store_lastWrite (s : State) (x v : Byte) : (s.store x v).lastWrite = s.lastWrite := rfl
@[simp] theorem State.store_trace (s : State) (x v : Byte) : (s.store x v).trace = s.trace := rfl
@[simp] theorem State.store_wp (s : State) (x v : Byte) : (s.store x v).wp = s.wp := rfl
@[simp] theorem State.store_watchHit (s : State) (x v : Byte) : (s.store x v).watchHit = s.watchHit := rfl
@[simp] theorem State.store_haltCause (s : State) (x v : Byte) : (s.store x v).haltCause = s.haltCause := rfl

@[simp] theorem State.emit_pc (s : State) (v : Byte) : (s.emit v).pc = s.pc := rfl
@[simp] theorem State.emit_a (s : State) (v : Byte) : (s.emit v).a = s.a := rfl
@[simp] theorem State.emit_b (s : State) (v : Byte) : (s.emit v).b = s.b := rfl
@[simp] theorem State.emit_sp (s : State) (v : Byte) : (s.emit v).sp = s.sp := rfl
@[simp] theorem State.emit_z (s : State) (v : Byte) : (s.emit v).z = s.z := rfl
@[simp] theorem State.emit_c (s : State) (v : Byte) : (s.emit v).c = s.c := rfl
@[simp] theorem State.emit_mem (s : State) (v : Byte) : (s.emit v).mem = s.mem := rfl
@[simp] theorem State.emit_halted (s : State) (v : Byte) : (s.emit v).halted = s.halted := rfl
@[simp] theorem State.emit_out (s : State) (v : Byte) : (s.emit v).out = s.out ++ [v] := rfl
@[simp] theorem State.emit_lastWrite (s : State) (v : Byte) : (s.emit v).lastWrite = s.lastWrite := rfl
@[simp] theorem State.emit_trace (s : State) (v : Byte) : (s.emit v).trace = s.trace := rfl
@[simp] theorem State.emit_wp (s : State) (v : Byte) : (s.emit v).wp = s.wp := rfl
@[simp] theorem State.emit_watchHit (s : State) (v : Byte) : (s.emit v).watchHit = s.watchHit := rfl
@[simp] theorem State.emit_haltCause (s : State) (v : Byte) : (s.emit v).haltCause = s.haltCause := rfl

@[simp] theorem State.recordStore_pc (s : State) (k : Byte) : (s.recordStore k).pc = s.pc := rfl
@[simp] theorem State.recordStore_a (s : State) (k : Byte) : (s.recordStore k).a = s.a := rfl
@[simp] theorem State.recordStore_b (s : State) (k : Byte) : (s.recordStore k).b = s.b := rfl
@[simp] theorem State.recordStore_sp (s : State) (k : Byte) : (s.recordStore k).sp = s.sp := rfl
@[simp] theorem State.recordStore_z (s : State) (k : Byte) : (s.recordStore k).z = s.z := rfl
@[simp] theorem State.recordStore_c (s : State) (k : Byte) : (s.recordStore k).c = s.c := rfl
@[simp] theorem State.recordStore_mem (s : State) (k : Byte) : (s.recordStore k).mem = s.mem := rfl
@[simp] theorem State.recordStore_halted (s : State) (k : Byte) : (s.recordStore k).halted = s.halted := rfl
@[simp] theorem State.recordStore_out (s : State) (k : Byte) : (s.recordStore k).out = s.out := rfl
@[simp] theorem State.recordStore_lastWrite (s : State) (k : Byte) : (s.recordStore k).lastWrite = some k := rfl
@[simp] theorem State.recordStore_trace (s : State) (k : Byte) : (s.recordStore k).trace = s.trace := rfl
@[simp] theorem State.recordStore_wp (s : State) (k : Byte) : (s.recordStore k).wp = s.wp := rfl
@[simp] theorem State.recordStore_watchHit (s : State) (k : Byte) : (s.recordStore k).watchHit = (s.watchHit || s.wp == some k) := rfl
@[simp] theorem State.recordStore_haltCause (s : State) (k : Byte) : (s.recordStore k).haltCause = s.haltCause := rfl

@[simp] theorem State.haltWith_pc (s : State) (x : HaltCause) : (s.haltWith x).pc = s.pc := rfl
@[simp] theorem State.haltWith_a (s : State) (x : HaltCause) : (s.haltWith x).a = s.a := rfl
@[simp] theorem State.haltWith_b (s : State) (x : HaltCause) : (s.haltWith x).b = s.b := rfl
@[simp] theorem State.haltWith_sp (s : State) (x : HaltCause) : (s.haltWith x).sp = s.sp := rfl
@[simp] theorem State.haltWith_z (s : State) (x : HaltCause) : (s.haltWith x).z = s.z := rfl
@[simp] theorem State.haltWith_c (s : State) (x : HaltCause) : (s.haltWith x).c = s.c := rfl
@[simp] theorem State.haltWith_mem (s : State) (x : HaltCause) : (s.haltWith x).mem = s.mem := rfl
@[simp] theorem State.haltWith_halted (s : State) (x : HaltCause) : (s.haltWith x).halted = true := rfl
@[simp] theorem State.haltWith_out (s : State) (x : HaltCause) : (s.haltWith x).out = s.out := rfl
@[simp] theorem State.haltWith_lastWrite (s : State) (x : HaltCause) : (s.haltWith x).lastWrite = s.lastWrite := rfl
@[simp] theorem State.haltWith_trace (s : State) (x : HaltCause) : (s.haltWith x).trace = s.trace := rfl
@[simp] theorem State.haltWith_wp (s : State) (x : HaltCause) : (s.haltWith x).wp = s.wp := rfl
@[simp] theorem State.haltWith_watchHit (s : State) (x : HaltCause) : (s.haltWith x).watchHit = s.watchHit := rfl
@[simp] theorem State.haltWith_haltCause (s : State) (x : HaltCause) : (s.haltWith x).haltCause = x := rfl

@[simp] theorem State.push_pc (s : State) (v : Byte) : (s.push v).pc = s.pc := rfl
@[simp] theorem State.push_a (s : State) (v : Byte) : (s.push v).a = s.a := rfl
@[simp] theorem State.push_b (s : State) (v : Byte) : (s.push v).b = s.b := rfl
@[simp] theorem State.push_sp (s : State) (v : Byte) : (s.push v).sp = s.sp - 1 := rfl
@[simp] theorem State.push_z (s : State) (v : Byte) : (s.push v).z = s.z := rfl
@[simp] theorem State.push_c (s : State) (v : Byte) : (s.push v).c = s.c := rfl
@[simp] theorem State.push_mem (s : State) (v : Byte) : (s.push v).mem = s.mem.write s.sp v := rfl
@[simp] theorem State.push_halted (s : State) (v : Byte) : (s.push v).halted = s.halted := rfl
@[simp] theorem State.push_out (s : State) (v : Byte) : (s.push v).out = s.out := rfl
@[simp] theorem State.push_lastWrite (s : State) (v : Byte) : (s.push v).lastWrite = s.lastWrite := rfl
@[simp] theorem State.push_trace (s : State) (v : Byte) : (s.push v).trace = s.trace := rfl
@[simp] theorem State.push_wp (s : State) (v : Byte) : (s.push v).wp = s.wp := rfl
@[simp] theorem State.push_watchHit (s : State) (v : Byte) : (s.push v).watchHit = s.watchHit := rfl
@[simp] theorem State.push_haltCause (s : State) (v : Byte) : (s.push v).haltCause = s.haltCause := rfl

@[simp] theorem State.popSp_pc (s : State) : s.popSp.pc = s.pc := rfl
@[simp] theorem State.popSp_a (s : State) : s.popSp.a = s.a := rfl
@[simp] theorem State.popSp_b (s : State) : s.popSp.b = s.b := rfl
@[simp] theorem State.popSp_sp (s : State) : s.popSp.sp = s.sp + 1 := rfl
@[simp] theorem State.popSp_z (s : State) : s.popSp.z = s.z := rfl
@[simp] theorem State.popSp_c (s : State) : s.popSp.c = s.c := rfl
@[simp] theorem State.popSp_mem (s : State) : s.popSp.mem = s.mem := rfl
@[simp] theorem State.popSp_halted (s : State) : s.popSp.halted = s.halted := rfl
@[simp] theorem State.popSp_out (s : State) : s.popSp.out = s.out := rfl
@[simp] theorem State.popSp_lastWrite (s : State) : s.popSp.lastWrite = s.lastWrite := rfl
@[simp] theorem State.popSp_trace (s : State) : s.popSp.trace = s.trace := rfl
@[simp] theorem State.popSp_wp (s : State) : s.popSp.wp = s.wp := rfl
@[simp] theorem State.popSp_watchHit (s : State) : s.popSp.watchHit = s.watchHit := rfl
@[simp] theorem State.popSp_haltCause (s : State) : s.popSp.haltCause = s.haltCause := rfl

@[simp] theorem State.zeroFrom_pc (s : State) (v : Byte) : (s.zeroFrom v).pc = s.pc := rfl
@[simp] theorem State.zeroFrom_a (s : State) (v : Byte) : (s.zeroFrom v).a = s.a := rfl
@[simp] theorem State.zeroFrom_b (s : State) (v : Byte) : (s.zeroFrom v).b = s.b := rfl
@[simp] theorem State.zeroFrom_sp (s : State) (v : Byte) : (s.zeroFrom v).sp = s.sp := rfl
@[simp] theorem State.zeroFrom_z (s : State) (v : Byte) : (s.zeroFrom v).z = zeroFlag v := rfl
@[simp] theorem State.zeroFrom_c (s : State) (v : Byte) : (s.zeroFrom v).c = s.c := rfl
@[simp] theorem State.zeroFrom_mem (s : State) (v : Byte) : (s.zeroFrom v).mem = s.mem := rfl
@[simp] theorem State.zeroFrom_halted (s : State) (v : Byte) : (s.zeroFrom v).halted = s.halted := rfl
@[simp] theorem State.zeroFrom_out (s : State) (v : Byte) : (s.zeroFrom v).out = s.out := rfl
@[simp] theorem State.zeroFrom_lastWrite (s : State) (v : Byte) : (s.zeroFrom v).lastWrite = s.lastWrite := rfl
@[simp] theorem State.zeroFrom_trace (s : State) (v : Byte) : (s.zeroFrom v).trace = s.trace := rfl
@[simp] theorem State.zeroFrom_wp (s : State) (v : Byte) : (s.zeroFrom v).wp = s.wp := rfl
@[simp] theorem State.zeroFrom_watchHit (s : State) (v : Byte) : (s.zeroFrom v).watchHit = s.watchHit := rfl
@[simp] theorem State.zeroFrom_haltCause (s : State) (v : Byte) : (s.zeroFrom v).haltCause = s.haltCause := rfl

@[simp] theorem State.addWith_pc (s : State) (x : Bool) : (s.addWith x).pc = s.pc := rfl
@[simp] theorem State.addWith_a (s : State) (x : Bool) : (s.addWith x).a = reduceSum (addSum s.a s.b x) := rfl
@[simp] theorem State.addWith_b (s : State) (x : Bool) : (s.addWith x).b = s.b := rfl
@[simp] theorem State.addWith_sp (s : State) (x : Bool) : (s.addWith x).sp = s.sp := rfl
@[simp] theorem State.addWith_z (s : State) (x : Bool) : (s.addWith x).z = zeroFlag (reduceSum (addSum s.a s.b x)) := rfl
@[simp] theorem State.addWith_c (s : State) (x : Bool) : (s.addWith x).c = carryFlag (addSum s.a s.b x) := rfl
@[simp] theorem State.addWith_mem (s : State) (x : Bool) : (s.addWith x).mem = s.mem := rfl
@[simp] theorem State.addWith_halted (s : State) (x : Bool) : (s.addWith x).halted = s.halted := rfl
@[simp] theorem State.addWith_out (s : State) (x : Bool) : (s.addWith x).out = s.out := rfl
@[simp] theorem State.addWith_lastWrite (s : State) (x : Bool) : (s.addWith x).lastWrite = s.lastWrite := rfl
@[simp] theorem State.addWith_trace (s : State) (x : Bool) : (s.addWith x).trace = s.trace := rfl
@[simp] theorem State.addWith_wp (s : State) (x : Bool) : (s.addWith x).wp = s.wp := rfl
@[simp] theorem State.addWith_watchHit (s : State) (x : Bool) : (s.addWith x).watchHit = s.watchHit := rfl
@[simp] theorem State.addWith_haltCause (s : State) (x : Bool) : (s.addWith x).haltCause = s.haltCause := rfl

@[simp] theorem State.appendTrace_pc (s : State) (n : Nat) (e : TraceEntry) : (s.appendTrace n e).pc = s.pc := rfl
@[simp] theorem State.appendTrace_a (s : State) (n : Nat) (e : TraceEntry) : (s.appendTrace n e).a = s.a := rfl
@[simp] theorem State.appendTrace_b (s : State) (n : Nat) (e : TraceEntry) : (s.appendTrace n e).b = s.b := rfl
@[simp] theorem State.appendTrace_sp (s : State) (n : Nat) (e : TraceEntry) : (s.appendTrace n e).sp = s.sp := rfl
@[simp] theorem State.appendTrace_z (s : State) (n : Nat) (e : TraceEntry) : (s.appendTrace n e).z = s.z := rfl
@[simp] theorem State.appendTrace_c (s : State) (n : Nat) (e : TraceEntry) : (s.appendTrace n e).c = s.c := rfl
@[simp] theorem State.appendTrace_mem (s : State) (n : Nat) (e : TraceEntry) : (s.appendTrace n e).mem = s.mem := rfl
@[simp] theorem State.appendTrace_halted (s : State) (n : Nat) (e : TraceEntry) : (s.appendTrace n e).halted = s.halted := rfl
@[simp] theorem State.appendTrace_out (s : State) (n : Nat) (e : TraceEntry) : (s.appendTrace n e).out = s.out := rfl
@[simp] theorem State.appendTrace_lastWrite (s : State) (n : Nat) (e : TraceEntry) : (s.appendTrace n e).lastWrite = s.lastWrite := rfl
@[simp] theorem State.appendTrace_trace (s : State) (n : Nat) (e : TraceEntry) : (s.appendTrace n e).trace = trimTrace n (s.trace ++ [e]) := rfl
@[simp] theorem State.appendTrace_wp (s : State) (n : Nat) (e : TraceEntry) : (s.appendTrace n e).wp = s.wp := rfl
@[simp] theorem State.appendTrace_watchHit (s : State) (n : Nat) (e : TraceEntry) : (s.appendTrace n e).watchHit = s.watchHit := rfl
@[simp] theorem State.appendTrace_haltCause (s : State) (n : Nat) (e : TraceEntry) : (s.appendTrace n e).haltCause = s.haltCause := rfl

end Sys2Proof.Machine
end

