-- ==== Sys2Proof/Laws/Exec.lean ====
section
/-! SUPPORT. Laws/Exec.lean: every instruction's body answers a next state; the fields of that state, once and for all. -/

namespace Sys2Proof.Machine

@[simp] theorem branchPc_true (x y : Byte) : branchPc true x y = x := rfl
@[simp] theorem branchPc_false (x y : Byte) : branchPc false x y = y := rfl

/-- The state that the body of an instruction leaves. -/
def effect (i : Instr) (s : State) : State :=
  match i with
  | .ldaImm k => (s.setA k).zeroFrom k
  | .ldbImm k => (s.setB k).zeroFrom k
  | .add => s.addWith false
  | .adc => s.addWith s.c
  | .subAImm k => (s.setA (s.a - k)).zeroFrom (s.a - k)
  | .cmpAImm k => s.zeroFrom (s.a - k)
  | .decA => (s.setA (s.a - 1)).zeroFrom (s.a - 1)
  | .printA => s.emit s.a
  | .jmp k => s.setPc k
  | .jz k => s.setPc (branchPc s.z k s.pc)
  | .jnz k => s.setPc (branchPc (!s.z) k s.pc)
  | .ldaMem k => (s.setA (s.load k)).setZ (if Config.ldaMemSetsZ then zeroFlag (s.load k) else s.z)
  | .staMem k => (s.store k s.a).recordStore k
  | .pushA => s.push s.a
  | .popA => (s.popSp.setA s.popByte).zeroFrom s.popByte
  | .pushB => s.push s.b
  | .popB => (s.popSp.setB s.popByte).zeroFrom s.popByte
  | .call k => (s.push s.pc).setPc k
  | .ret => s.popSp.setPc s.popByte
  | .halt => s.haltWith .haltInstr

/-- Every body completes (60_exceptions.md R200). -/
theorem exec_eq (i : Instr) (s : State) : exec i s = .next (effect i s) := by cases i <;> rfl

theorem exec_next_iff (i : Instr) (s t : State) : exec i s = .next t ↔ t = effect i s := by
  rw [exec_eq, Host.Outcome.next.injEq, eq_comm]

@[simp] theorem mapNext_next (f : State → State) (s : State) : mapNext f (.next s) = .next (f s) := rfl

@[simp] theorem effect_wp (i : Instr) (s : State) : (effect i s).wp = s.wp := by
  cases i <;> simp [effect]

@[simp] theorem effect_trace (i : Instr) (s : State) : (effect i s).trace = s.trace := by
  cases i <;> simp [effect]

theorem effect_out (i : Instr) (s : State) : (effect i s).out = if i = .printA then s.out ++ [s.a] else s.out := by
  cases i <;> simp [effect]

theorem effect_halted (i : Instr) (s : State) : (effect i s).halted = (s.halted || i == .halt) := by
  cases i <;> simp [effect]

theorem effect_haltCause (i : Instr) (s : State) : (effect i s).haltCause = if i = .halt then .haltInstr else s.haltCause := by
  cases i <;> simp [effect]

theorem effect_lastWrite (i : Instr) (s : State) :
    (effect i s).lastWrite = match i with
      | .staMem k => some k
      | _ => s.lastWrite := by
  cases i <;> simp [effect]

theorem effect_watchHit (i : Instr) (s : State) :
    (effect i s).watchHit = match i with
      | .staMem k => s.watchHit || s.wp == some k
      | _ => s.watchHit := by
  cases i <;> simp [effect]

/-- A body writes memory where `storeOf` says, and nowhere else. -/
theorem effect_mem (i : Instr) (s : State) :
    (effect i s).mem = match storeOf i s with
      | some (x, v) => s.mem.write x v
      | none => s.mem := by
  cases i <;> simp [effect, storeOf, State.pushAddr, absAddr]

theorem effect_mem_wf (i : Instr) {s : State} (h : s.mem.wf = true) : (effect i s).mem.wf = true := by
  rw [effect_mem]
  split
  · exact Memory.write_wf h _ _
  · exact h

/-- The next state depends on memory only through the cell the body loads. -/
theorem effect_setMem (i : Instr) (s : State) (m : Memory) (h : ∀ x, loadAddr i s = some x → m.read x = s.mem.read x) :
    (effect i (s.setMem m)).setMem [] = (effect i s).setMem [] := by
  cases i <;> simp [loadAddr, absAddr, State.popAddr] at h <;>
    apply State.ext <;> simp [effect, State.load, State.popByte, State.popAddr, h]

/-- Two states that differ only in memory are one state with two memories. -/
theorem eq_setMem_of_setMem_eq {s t : State} (h : s.setMem [] = t.setMem []) : s = t.setMem s.mem := by
  have h' := congrArg (fun z => State.setMem z s.mem) h
  exact h'

/-- Two states that differ only in the watchpoint and its latch are one state with two of each. -/
theorem eq_setWatch_of_setWatch_eq {s t : State} (h : (s.setWp none).setWatchHit false = (t.setWp none).setWatchHit false) :
    s = (t.setWp s.wp).setWatchHit s.watchHit := by
  have h' := congrArg (fun z => (State.setWp z s.wp).setWatchHit s.watchHit) h
  exact h'

/-- The watchpoint and its latch affect nothing else of the next state. -/
theorem effect_setWatch (i : Instr) (s : State) (w : Option Byte) (x : Bool) :
    ((effect i ((s.setWp w).setWatchHit x)).setWp none).setWatchHit false = ((effect i s).setWp none).setWatchHit false := by
  cases i <;> rfl

end Sys2Proof.Machine
end

