-- ==== Sys2Proof/Laws/Flags.lean ====
section
/-! SUPPORT. Laws/Flags.lean: what the flag computations say. -/

namespace Sys2Proof.Machine

@[simp] theorem bitNat_false : bitNat false = 0 := rfl
@[simp] theorem bitNat_true : bitNat true = 1 := rfl

theorem zeroFlag_iff (v : Byte) : zeroFlag v = true ↔ v = 0 := by simp [zeroFlag]

theorem zeroFlag_eq_decide (v : Byte) : zeroFlag v = decide (v = 0) := by
  rw [Bool.eq_iff_iff, zeroFlag_iff, decide_eq_true_iff]

/-- A difference is 0 exactly when its two sides are equal. -/
theorem byte_sub_eq_zero (x y : Byte) : x - y = 0 ↔ x = y := by
  constructor <;> intro h <;> bv_omega

theorem carryFlag_iff (n : Nat) : carryFlag n = true ↔ 255 < n := by simp [carryFlag]

/-- The reduced sum and the carry together are the unreduced sum (41_arithmetic.md R120, R121). -/
theorem addSum_exact (x y : Byte) (c : Bool) :
    (reduceSum (addSum x y c)).toNat + 256 * bitNat (carryFlag (addSum x y c)) = x.toNat + y.toNat + bitNat c := by
  have hx := x.isLt
  have hy := y.isLt
  have hc : bitNat c ≤ 1 := by cases c <;> decide
  unfold reduceSum
  rw [BitVec.toNat_ofNat]
  cases h : carryFlag (addSum x y c) with
  | true => rw [carryFlag_iff] at h; unfold addSum at *; rw [bitNat_true]; omega
  | false =>
    have h' : ¬ 255 < addSum x y c := by rw [← carryFlag_iff, h]; decide
    unfold addSum at *; rw [bitNat_false]; omega

end Sys2Proof.Machine
end

