-- ==== Sys2Proof/Laws/Load.lean ====
section
/-! SUPPORT. Laws/Load.lean: what the copy of an image leaves in each cell, and the fields a load leaves. -/

namespace Sys2Proof.Machine

@[simp] theorem loadImage_pc (image : List Byte) (start : Nat) (s : State) : (loadImage image start s).pc = wrapAddr start := rfl
@[simp] theorem loadImage_mem (image : List Byte) (start : Nat) (s : State) :
    (loadImage image start s).mem = copyImage [] (wrapAddr start) image := rfl
@[simp] theorem loadImage_wp (image : List Byte) (start : Nat) (s : State) : (loadImage image start s).wp = s.wp := rfl
@[simp] theorem loadImage_halted (image : List Byte) (start : Nat) (s : State) : (loadImage image start s).halted = false := rfl
@[simp] theorem loadImage_watchHit (image : List Byte) (start : Nat) (s : State) : (loadImage image start s).watchHit = false := rfl

@[simp] theorem startAddress_none : startAddress none = 0 := rfl
@[simp] theorem startAddress_some (n : Nat) : startAddress (some n) = n := rfl

theorem loadImage_mem_wf (image : List Byte) (start : Nat) (s : State) : (loadImage image start s).mem.wf = true := copyImage_wf rfl _ _

theorem copyImage_nil (m : Memory) (x : Byte) : copyImage m x [] = m := rfl

theorem copyImage_cons (m : Memory) (x v : Byte) (rest : List Byte) : copyImage m x (v :: rest) = copyImage (m.write x v) (x + 1) rest := rfl

/-- The cell after a cell, counted from an address. -/
theorem next_cell (x : Byte) (j : Nat) : x + 1 + BitVec.ofNat 8 j = x + BitVec.ofNat 8 (j + 1) := by
  rw [Nat.add_comm j 1, BitVec.ofNat_add, BitVec.add_assoc]; rfl

/-- A cell that no image byte is copied to keeps its byte. -/
theorem copyImage_read_other {m : Memory} (hm : m.wf = true) (x : Byte) (image : List Byte) (z : Byte)
    (hz : ∀ j, j < image.length → x + BitVec.ofNat 8 j ≠ z) : (copyImage m x image).read z = m.read z := by
  induction image generalizing m x with
  | nil => rfl
  | cons v rest ih =>
    have h0 : x ≠ z := by simpa using hz 0 (by simp)
    rw [copyImage_cons, ih (Memory.write_wf hm x v), Memory.read_write_other hm v h0]
    intro j hj
    rw [next_cell]
    exact hz _ (Nat.succ_lt_succ hj)

end Sys2Proof.Machine
end

