-- ==== Sys2Proof/Laws/PerInstr.lean ====
section
/-! SUPPORT. Laws/PerInstr.lean: the shape of every instruction, one lemma per constructor: it is well formed, it is its mnemonic with its operand,
its size is 1 or 2 (30_encoding.md R70), and its bytes under the default map are as many as its size and begin with its opcode. -/

namespace Sys2Proof.Laws.Shape

/-- What is said of each instruction. -/
def Statement (i : Instr) : Prop :=
  i.wf = true ∧ (i.size = 1 ∧ i.operand = none ∨ i.size = 2 ∧ i.operand.isSome = true) ∧ (encode i).length = i.size ∧
    (encode i).head? = some (defaultOpcodeMap i.mnemonic)

theorem ldaImm (k : Byte) : Statement (.ldaImm k) := ⟨rfl, .inr ⟨rfl, rfl⟩, rfl, rfl⟩
theorem ldbImm (k : Byte) : Statement (.ldbImm k) := ⟨rfl, .inr ⟨rfl, rfl⟩, rfl, rfl⟩
theorem add : Statement .add := ⟨rfl, .inl ⟨rfl, rfl⟩, rfl, rfl⟩
theorem adc : Statement .adc := ⟨rfl, .inl ⟨rfl, rfl⟩, rfl, rfl⟩
theorem subAImm (k : Byte) : Statement (.subAImm k) := ⟨rfl, .inr ⟨rfl, rfl⟩, rfl, rfl⟩
theorem cmpAImm (k : Byte) : Statement (.cmpAImm k) := ⟨rfl, .inr ⟨rfl, rfl⟩, rfl, rfl⟩
theorem decA : Statement .decA := ⟨rfl, .inl ⟨rfl, rfl⟩, rfl, rfl⟩
theorem printA : Statement .printA := ⟨rfl, .inl ⟨rfl, rfl⟩, rfl, rfl⟩
theorem jmp (k : Byte) : Statement (.jmp k) := ⟨rfl, .inr ⟨rfl, rfl⟩, rfl, rfl⟩
theorem jz (k : Byte) : Statement (.jz k) := ⟨rfl, .inr ⟨rfl, rfl⟩, rfl, rfl⟩
theorem jnz (k : Byte) : Statement (.jnz k) := ⟨rfl, .inr ⟨rfl, rfl⟩, rfl, rfl⟩
theorem ldaMem (k : Byte) : Statement (.ldaMem k) := ⟨rfl, .inr ⟨rfl, rfl⟩, rfl, rfl⟩
theorem staMem (k : Byte) : Statement (.staMem k) := ⟨rfl, .inr ⟨rfl, rfl⟩, rfl, rfl⟩
theorem pushA : Statement .pushA := ⟨rfl, .inl ⟨rfl, rfl⟩, rfl, rfl⟩
theorem popA : Statement .popA := ⟨rfl, .inl ⟨rfl, rfl⟩, rfl, rfl⟩
theorem pushB : Statement .pushB := ⟨rfl, .inl ⟨rfl, rfl⟩, rfl, rfl⟩
theorem popB : Statement .popB := ⟨rfl, .inl ⟨rfl, rfl⟩, rfl, rfl⟩
theorem call (k : Byte) : Statement (.call k) := ⟨rfl, .inr ⟨rfl, rfl⟩, rfl, rfl⟩
theorem ret : Statement .ret := ⟨rfl, .inl ⟨rfl, rfl⟩, rfl, rfl⟩
theorem halt : Statement .halt := ⟨rfl, .inl ⟨rfl, rfl⟩, rfl, rfl⟩

end Sys2Proof.Laws.Shape
end

