-- ==== Sys2Proof/Laws/Trace.lean ====
section
/-! SUPPORT. Laws/Trace.lean: the trace ring: what a trim keeps, and that appending keeps the trace's invariant. -/

namespace Sys2Proof.Machine

@[simp] theorem trimTrace_length (cap : Nat) (t : List TraceEntry) : (trimTrace cap t).length = min cap t.length := by
  simp [trimTrace]; omega

/-- A trim drops the oldest entries and keeps the rest in order. -/
theorem trimTrace_suffix (cap : Nat) (t : List TraceEntry) : ∃ dropped, t = dropped ++ trimTrace cap t :=
  ⟨t.take (t.length - cap), (List.take_append_drop _ _).symm⟩

/-- A trim to a capacity above 0 keeps the newest entry; to capacity 0 it keeps nothing. -/
theorem trimTrace_append_getLast? (cap : Nat) (t : List TraceEntry) (e : TraceEntry) :
    (trimTrace cap (t ++ [e])).getLast? = if cap = 0 then none else some e := by
  unfold trimTrace
  split
  · next h => subst h; simp
  · next h =>
    rw [List.getLast?_drop, List.length_append, List.length_singleton, if_neg (by omega)]
    simp

theorem traceChained_cons (x : TraceEntry) (t : List TraceEntry) :
    traceChained (x :: t) = true ↔ (∀ y, t.head? = some y → entryFollows x y = true) ∧ traceChained t = true := by
  cases t <;> simp [traceChained]

theorem traceChained_drop {t : List TraceEntry} (h : traceChained t = true) (n : Nat) : traceChained (t.drop n) = true := by
  induction t generalizing n with
  | nil => simpa using h
  | cons x t ih =>
    cases n with
    | zero => exact h
    | succ n => exact ih ((traceChained_cons x t).1 h).2 n

theorem traceChained_append {t : List TraceEntry} {e : TraceEntry} (h : traceChained t = true)
    (he : ∀ x, t.getLast? = some x → entryFollows x e = true) : traceChained (t ++ [e]) = true := by
  induction t with
  | nil => rfl
  | cons x t ih =>
    rw [List.cons_append, traceChained_cons]
    rw [traceChained_cons] at h
    cases t with
    | nil => exact ⟨by simpa using he x rfl, rfl⟩
    | cons y t => exact ⟨by simpa using h.1, ih h.2 (by simpa using he)⟩

/-- Appending an entry that follows the newest one keeps the chain, through the trim. -/
theorem traceChained_trim {t : List TraceEntry} {e : TraceEntry} (cap : Nat) (h : traceChained t = true)
    (he : ∀ x, t.getLast? = some x → entryFollows x e = true) : traceChained (trimTrace cap (t ++ [e])) = true :=
  traceChained_drop (traceChained_append h he) _

theorem trimTrace_all {t : List TraceEntry} {e : TraceEntry} (p : TraceEntry → Bool) (cap : Nat) (h : t.all p = true) (he : p e = true) :
    (trimTrace cap (t ++ [e])).all p = true := by
  rw [List.all_eq_true] at *
  intro x hx
  have := List.mem_of_mem_drop hx
  rcases List.mem_append.1 this with h' | h'
  · exact h x h'
  · rwa [List.mem_singleton.1 h']

end Sys2Proof.Machine
end

