-- ==== Sys2Proof/Laws/Step.lean ====
section
/-! SUPPORT. Laws/Step.lean: what a step can do, said once: it is a no-op, or it halts on an unrecognized opcode, or it runs the instruction fetched. -/

namespace Sys2Proof.Machine

@[simp] theorem recordStep_pc (n : Nat) (s t : State) (op : Byte) (x : Option Mnemonic) (k : Option Byte) :
    (recordStep n s op x k t).pc = t.pc := rfl
@[simp] theorem recordStep_a (n : Nat) (s t : State) (op : Byte) (x : Option Mnemonic) (k : Option Byte) :
    (recordStep n s op x k t).a = t.a := rfl
@[simp] theorem recordStep_b (n : Nat) (s t : State) (op : Byte) (x : Option Mnemonic) (k : Option Byte) :
    (recordStep n s op x k t).b = t.b := rfl
@[simp] theorem recordStep_sp (n : Nat) (s t : State) (op : Byte) (x : Option Mnemonic) (k : Option Byte) :
    (recordStep n s op x k t).sp = t.sp := rfl
@[simp] theorem recordStep_z (n : Nat) (s t : State) (op : Byte) (x : Option Mnemonic) (k : Option Byte) :
    (recordStep n s op x k t).z = t.z := rfl
@[simp] theorem recordStep_c (n : Nat) (s t : State) (op : Byte) (x : Option Mnemonic) (k : Option Byte) :
    (recordStep n s op x k t).c = t.c := rfl
@[simp] theorem recordStep_view (n : Nat) (s t : State) (op : Byte) (x : Option Mnemonic) (k : Option Byte) :
    (recordStep n s op x k t).view = t.view := rfl
@[simp] theorem recordStep_mem (n : Nat) (s t : State) (op : Byte) (x : Option Mnemonic) (k : Option Byte) :
    (recordStep n s op x k t).mem = t.mem := rfl
@[simp] theorem recordStep_halted (n : Nat) (s t : State) (op : Byte) (x : Option Mnemonic) (k : Option Byte) :
    (recordStep n s op x k t).halted = t.halted := rfl
@[simp] theorem recordStep_out (n : Nat) (s t : State) (op : Byte) (x : Option Mnemonic) (k : Option Byte) :
    (recordStep n s op x k t).out = t.out := rfl
@[simp] theorem recordStep_lastWrite (n : Nat) (s t : State) (op : Byte) (x : Option Mnemonic) (k : Option Byte) :
    (recordStep n s op x k t).lastWrite = t.lastWrite := rfl
@[simp] theorem recordStep_wp (n : Nat) (s t : State) (op : Byte) (x : Option Mnemonic) (k : Option Byte) :
    (recordStep n s op x k t).wp = t.wp := rfl
@[simp] theorem recordStep_watchHit (n : Nat) (s t : State) (op : Byte) (x : Option Mnemonic) (k : Option Byte) :
    (recordStep n s op x k t).watchHit = t.watchHit := rfl
@[simp] theorem recordStep_haltCause (n : Nat) (s t : State) (op : Byte) (x : Option Mnemonic) (k : Option Byte) :
    (recordStep n s op x k t).haltCause = t.haltCause := rfl
@[simp] theorem recordStep_trace (n : Nat) (s t : State) (op : Byte) (x : Option Mnemonic) (k : Option Byte) :
    (recordStep n s op x k t).trace = trimTrace n (t.trace ++ [.exec (execEntry s op x k t)]) := rfl

@[simp] theorem advance_size (i : Instr) (s : State) : s.advance i.size = afterFetch i s := rfl

@[simp] theorem afterFetch_pc (i : Instr) (s : State) : (afterFetch i s).pc = s.pc + BitVec.ofNat 8 i.size := rfl
@[simp] theorem afterFetch_view (i : Instr) (s : State) : (afterFetch i s).view = s.view := rfl
@[simp] theorem afterFetch_a (i : Instr) (s : State) : (afterFetch i s).a = s.a := rfl
@[simp] theorem afterFetch_b (i : Instr) (s : State) : (afterFetch i s).b = s.b := rfl
@[simp] theorem afterFetch_sp (i : Instr) (s : State) : (afterFetch i s).sp = s.sp := rfl
@[simp] theorem afterFetch_z (i : Instr) (s : State) : (afterFetch i s).z = s.z := rfl
@[simp] theorem afterFetch_c (i : Instr) (s : State) : (afterFetch i s).c = s.c := rfl
@[simp] theorem afterFetch_mem (i : Instr) (s : State) : (afterFetch i s).mem = s.mem := rfl
@[simp] theorem afterFetch_halted (i : Instr) (s : State) : (afterFetch i s).halted = s.halted := rfl
@[simp] theorem afterFetch_out (i : Instr) (s : State) : (afterFetch i s).out = s.out := rfl
@[simp] theorem afterFetch_lastWrite (i : Instr) (s : State) : (afterFetch i s).lastWrite = s.lastWrite := rfl
@[simp] theorem afterFetch_trace (i : Instr) (s : State) : (afterFetch i s).trace = s.trace := rfl
@[simp] theorem afterFetch_wp (i : Instr) (s : State) : (afterFetch i s).wp = s.wp := rfl
@[simp] theorem afterFetch_watchHit (i : Instr) (s : State) : (afterFetch i s).watchHit = s.watchHit := rfl
@[simp] theorem afterFetch_haltCause (i : Instr) (s : State) : (afterFetch i s).haltCause = s.haltCause := rfl

/-- The state a step on an unrecognized opcode leaves. -/
def haltedOnData (cfg : Config) (s : State) : State :=
  recordStep cfg.traceCap s (s.load s.pc) none none ((s.advance 1).haltWith (.undefinedOpcode (s.load s.pc)))

/-- The state a step that runs `i` leaves. -/
def afterInstr (cfg : Config) (i : Instr) (s : State) : State :=
  recordStep cfg.traceCap s (s.load s.pc) (some i.mnemonic) i.operand (effect i (afterFetch i s))

/-- The state a step leaves. -/
def nextState (cfg : Config) (s : State) : State :=
  if s.halted then s
  else
    match fetchInstr cfg.opcodeMap s with
    | none => haltedOnData cfg s
    | some i => afterInstr cfg i s

/-- Every step completes (60_exceptions.md R200), and its two fetches are one look-up of the bytes at `PC`. -/
theorem engineStep_eq (cfg : Config) (s : State) : engineStep cfg s = .next (nextState cfg s) := by
  unfold engineStep nextState
  split
  · rfl
  · unfold fetchInstr decodeOp State.fetch8
    dsimp only
    cases h : mnemonicOf cfg.opcodeMap (s.load s.pc) with
    | none => rfl
    | some mn =>
      simp only [Option.map_some, exec_eq, mapNext_next, afterInstr, Mnemonic.instr_mnemonic, Mnemonic.instr_operand]
      by_cases h2 : mn.size = 2
      · have e : (s.advance 1).advance 1 = afterFetch (mn.instr (s.load (s.pc + 1))) s := by
          rw [← advance_size, Mnemonic.instr_size, h2]
          unfold State.advance State.setPc
          simp only [BitVec.add_assoc]
          rfl
        have l : (s.advance 1).load (s.advance 1).pc = s.load (s.pc + 1) := rfl
        rw [if_pos h2, if_pos h2, l, e]
      · have e : s.advance 1 = afterFetch (mn.instr (s.load (s.pc + 1))) s := by
          rw [← advance_size, Mnemonic.instr_size, mn.size_eq.resolve_right h2]
        have e0 : mn.instr 0 = mn.instr (s.load (s.pc + 1)) := by cases mn <;> first | rfl | exact absurd rfl h2
        rw [if_neg h2, if_neg h2, e0, e]

theorem engineStep_next_iff (cfg : Config) (s t : State) : engineStep cfg s = .next t ↔ t = nextState cfg s := by
  rw [engineStep_eq, Host.Outcome.next.injEq, eq_comm]

theorem nextState_halted {cfg : Config} {s : State} (h : s.halted = true) : nextState cfg s = s := by
  rw [nextState, if_pos h]

theorem nextState_data {cfg : Config} {s : State} (h : s.halted = false) (hf : fetchInstr cfg.opcodeMap s = none) :
    nextState cfg s = haltedOnData cfg s := by
  rw [nextState, if_neg (by simp [h]), hf]

theorem nextState_instr {cfg : Config} {s : State} {i : Instr} (h : s.halted = false) (hf : fetchInstr cfg.opcodeMap s = some i) :
    nextState cfg s = afterInstr cfg i s := by
  rw [nextState, if_neg (by simp [h]), hf]

/-- What a step can do: nothing on a halted core, a halt on an unrecognized opcode, or the instruction fetched. -/
theorem engineStep_cases {cfg : Config} {s t : State} (h : engineStep cfg s = .next t) :
    (s.halted = true ∧ t = s) ∨
    (s.halted = false ∧ fetchInstr cfg.opcodeMap s = none ∧ t = haltedOnData cfg s) ∨
    ∃ i, s.halted = false ∧ fetchInstr cfg.opcodeMap s = some i ∧ t = afterInstr cfg i s := by
  rw [engineStep_next_iff] at h
  subst h
  cases hh : s.halted with
  | true => exact .inl ⟨rfl, nextState_halted hh⟩
  | false =>
    cases hf : fetchInstr cfg.opcodeMap s with
    | none => exact .inr (.inl ⟨rfl, rfl, nextState_data hh hf⟩)
    | some i => exact .inr (.inr ⟨i, rfl, rfl, nextState_instr hh hf⟩)

/-- The instruction whose bytes stand at `PC` is the one fetched (30_encoding.md R80). -/
theorem fetchInstr_of_instrAtPc {m : OpcodeMap} (hm : m.wf = true) {i : Instr} {s : State} (h : instrAtPc m i s) :
    fetchInstr m s = some i := by
  rw [fetchInstr, h.1]
  exact decodeOp_encoded hm i _ h.2

/-- The fetched instruction's bytes stand at `PC`. -/
theorem instrAtPc_of_fetchInstr {m : OpcodeMap} {i : Instr} {s : State} (h : fetchInstr m s = some i) :
    instrAtPc m i s ∧ mnemonicOf m (s.load s.pc) = some i.mnemonic := by
  obtain ⟨h1, h2, h3⟩ := decodeOp_eq_some h
  refine ⟨⟨h2.symm, fun k hk => ?_⟩, h1⟩
  rw [h3] at hk
  split at hk <;> simp_all

theorem fetchInstr_eq_none {m : OpcodeMap} {s : State} : fetchInstr m s = none ↔ mnemonicOf m (s.load s.pc) = none :=
  decodeOp_eq_none ..

/-- The bytes placed at `PC` are the bytes fetched. -/
theorem fetchInstr_placeAtPc (m : OpcodeMap) {s : State} (hs : s.mem.wf = true) (b0 b1 : Byte) :
    fetchInstr m (placeAtPc s b0 b1) = decodeOp m b0 b1 := by
  have hne : s.pc + 1 ≠ s.pc := by intro h; bv_omega
  have hw := Memory.write_wf hs s.pc b0
  have h0 : (placeAtPc s b0 b1).load (placeAtPc s b0 b1).pc = b0 := by
    show Memory.read (Memory.write (Memory.write s.mem s.pc b0) (s.pc + 1) b1) s.pc = b0
    rw [Memory.read_write_other hw b1 hne, Memory.read_write_same hs]
  have h1 : (placeAtPc s b0 b1).load ((placeAtPc s b0 b1).pc + 1) = b1 := by
    show Memory.read (Memory.write (Memory.write s.mem s.pc b0) (s.pc + 1) b1) (s.pc + 1) = b1
    rw [Memory.read_write_same hw]
  rw [fetchInstr, h0, h1]

theorem engineRun_zero (cfg : Config) (s : State) : engineRun cfg 0 s = .next s := rfl

/-- A run is a run of fewer steps from the next state. -/
theorem engineRun_succ (cfg : Config) (n : Nat) (s : State) : engineRun cfg (n + 1) s = engineRun cfg n (nextState cfg s) := by
  rw [engineRun, engineStep_eq]

/-- Every run completes. -/
theorem engineRun_next (cfg : Config) (n : Nat) (s : State) : ∃ t, engineRun cfg n s = .next t := by
  induction n generalizing s with
  | zero => exact ⟨s, rfl⟩
  | succ n ih => rw [engineRun_succ]; exact ih _

/-- What every step keeps, every run keeps. -/
theorem engineRun_induct {cfg : Config} {P : State → Prop} (hs : ∀ s, P s → P (nextState cfg s)) {n : Nat} {s t : State}
    (h : P s) (hr : engineRun cfg n s = .next t) : P t := by
  induction n generalizing s with
  | zero => rw [engineRun_zero, Host.Outcome.next.injEq] at hr; exact hr ▸ h
  | succ n ih => rw [engineRun_succ] at hr; exact ih (hs s h) hr

end Sys2Proof.Machine
end

