-- ==== Sys2Proof/Laws/Session.lean ====
section
/-! SUPPORT. Laws/Session.lean: what a session's step, a batch and a host command can do to the core, said once. -/

namespace Sys2Proof.Machine

@[simp] theorem pushSnapshot_core (cfg : Config) (q : Session) : (q.pushSnapshot cfg).core = q.core := by
  unfold Session.pushSnapshot; split <;> rfl
@[simp] theorem pushSnapshot_loaded (cfg : Config) (q : Session) : (q.pushSnapshot cfg).loaded = q.loaded := by
  unfold Session.pushSnapshot; split <;> rfl
@[simp] theorem pushSnapshot_bp (cfg : Config) (q : Session) : (q.pushSnapshot cfg).bp = q.bp := by
  unfold Session.pushSnapshot; split <;> rfl
@[simp] theorem pushSnapshot_events (cfg : Config) (q : Session) : (q.pushSnapshot cfg).events = q.events := by
  unfold Session.pushSnapshot; split <;> rfl

/-- The push before an executing step. -/
theorem pushSnapshot_history (cfg : Config) {q : Session} (h : q.core.halted = false) :
    (q.pushSnapshot cfg).history = (capture q.core :: q.history).take cfg.historyCap := by
  simp [Session.pushSnapshot, h]

@[simp] theorem afterBatch_core (cfg : Config) (q : Session) (w : Option BatchStop) : (q.afterBatch cfg w).core = q.core := by
  unfold Session.afterBatch; split <;> rfl
@[simp] theorem afterBatch_events (cfg : Config) (q : Session) (w : Option BatchStop) : (q.afterBatch cfg w).events = q.events := by
  unfold Session.afterBatch; split <;> rfl

/-- A step of a loaded session. -/
theorem Session.step_eq {cfg : Config} {q : Session} (hl : q.loaded = true) :
    q.step cfg = .next { q.pushSnapshot cfg with core := nextState cfg q.core } := by
  unfold Session.step; rw [if_pos hl, engineStep_eq]

/-- A session steps only once it is loaded (10_state.md R41). -/
theorem Session.step_cases {cfg : Config} {q r : Session} (h : q.step cfg = .next r) :
    q.loaded = true ∧ r = { q.pushSnapshot cfg with core := nextState cfg q.core } := by
  cases hl : q.loaded with
  | true => rw [Session.step_eq hl] at h; cases h; exact ⟨rfl, rfl⟩
  | false => unfold Session.step at h; simp [hl] at h

/-- A report of a hit lowers the latch and changes nothing else of the core. -/
theorem reportWatch_core (q : Session) : q.reportWatch.core = if q.core.watchHit then q.core.setWatchHit false else q.core := by
  unfold Session.reportWatch Session.clearWatchHit; split <;> rfl

/-- What every step and the clear of the latch keep, a batch's steps keep. -/
theorem batchSteps_induct {cfg : Config} {P : State → Prop} (hs : ∀ s, P s → P (nextState cfg s))
    (hw : ∀ s, P s → P (s.setWatchHit false)) {n : Nat} {q r : Session} {w : Option BatchStop} (h : P q.core)
    (hb : batchSteps cfg n q = .next (r, w)) : P r.core := by
  induction n generalizing q with
  | zero => cases hb; exact h
  | succ n ih =>
    unfold batchSteps at hb
    split at hb
    · cases hb; exact h
    · split at hb
      · next t ht =>
        have ht' : P t.core := by obtain ⟨_, rfl⟩ := Session.step_cases ht; exact hs _ h
        split at hb
        · next hwh => cases hb; rw [reportWatch_core, if_pos hwh]; exact hw _ ht'
        · split at hb
          · cases hb; exact ht'
          · exact ih ht' hb
      · cases hb
      · cases hb

theorem runBatch_induct {cfg : Config} {P : State → Prop} (hs : ∀ s, P s → P (nextState cfg s))
    (hw : ∀ s, P s → P (s.setWatchHit false)) {q r : Session} {rep : Report} (h : P q.core)
    (hb : q.runBatch cfg = .next (r, rep)) : P r.core := by
  unfold Session.runBatch at hb
  split at hb
  · split at hb
    · next t why ht => cases hb; rw [afterBatch_core]; exact batchSteps_induct hs hw h ht
    · cases hb
    · cases hb
  · cases hb

end Sys2Proof.Machine
end

