-- ==== Sys2Proof/Tests/Slice0.lean ====
section
/-! SUPPORT. Tests/Slice0.lean: the model's own tests. Expected results are taken from spec/95_test_vectors.md (vector names L1, A2, ... are its own) or worked
out by hand from the rules; each runs one step. A `witness_` theorem shows a state and operands that meet all hypotheses of the obligation it is named after. -/

namespace Sys2Proof.Tests

open Sys2Proof Sys2Proof.Machine

/-! ## Helpers -/

/-- The next state of an outcome, where there is one. -/
def nextOf {α : Type} (o : Host.Outcome α Fault Refusal) : Option α :=
  match o with
  | .next s => some s
  | .fault _ => none
  | .refused _ => none

/-- The state right after a load of some bytes at an address. -/
def vec (pc : Nat) (bytes : List Byte) : State := loadImage bytes pc State.reset

/-- The state one step leaves. -/
def run1 (s : State) : Option State := nextOf (step s)

/-- A configuration for tests, with a small trace, history and batch, and a map other than the default one. -/
def smallConfig : Config where
  opcodeMap := fun mn => 0xFF - defaultOpcodeMap mn
  traceCap := 2
  historyCap := 2
  batchSteps := 2
  constKeyword := "EQU".toList
  snapshotBeforeNoop := fun _ => false
  stopEndsCadence := fun _ _ => true

/-- A session right after a load. -/
def sess (pc : Nat) (bytes : List Byte) : Session := Session.constructed.load bytes pc

theorem next_of_nextOf {α : Type} {o : Host.Outcome α Fault Refusal} {s : α} (h : nextOf o = some s) : o = .next s := by
  cases o <;> simp [nextOf] at h; rw [h]

/-! ## Well-formedness: each check refuses an ill-formed term -/

theorem test_wf_map_refuses_shared_byte : OpcodeMap.wf (fun _ => 0x01) = false := by decide
theorem test_wf_map_refuses_two_of_one : OpcodeMap.wf (fun mn => if mn = .HALT then 0x01 else defaultOpcodeMap mn) = false := by decide
theorem test_wf_map_admits_default : OpcodeMap.wf defaultOpcodeMap = true := by decide
theorem test_wf_map_admits_another : OpcodeMap.wf smallConfig.opcodeMap = true := by decide
theorem test_wf_listing_refuses_wrong_mnemonic :
    Listing.wf defaultOpcodeMap { opcode := 0x03, ins := some .ADC, operand := none, size := 1 } = false := by decide
theorem test_wf_listing_refuses_unrecognized_mnemonic :
    Listing.wf defaultOpcodeMap { opcode := 0x00, ins := some .HALT, operand := none, size := 1 } = false := by decide
theorem test_wf_listing_refuses_wrong_size :
    Listing.wf defaultOpcodeMap { opcode := 0x01, ins := some .LDA_IMM, operand := none, size := 1 } = false := by decide
theorem test_wf_listing_refuses_long_raw_byte :
    Listing.wf defaultOpcodeMap { opcode := 0x00, ins := none, operand := some 0, size := 2 } = false := by decide
theorem test_wf_listing_refuses_missing_operand :
    Listing.wf defaultOpcodeMap { opcode := 0x01, ins := some .LDA_IMM, operand := none, size := 2 } = false := by decide
theorem test_wf_listing_refuses_spare_operand :
    Listing.wf defaultOpcodeMap { opcode := 0x03, ins := some .ADD, operand := some 1, size := 1 } = false := by decide
theorem test_wf_listing_admits_instruction :
    Listing.wf defaultOpcodeMap { opcode := 0x12, ins := some .CALL, operand := some 8, size := 2 } = true := by decide
theorem test_wf_memory_refuses_disorder : Memory.wf [(2, 1), (1, 1)] = false := by decide
theorem test_wf_memory_refuses_listed_zero : Memory.wf [(2, 0)] = false := by decide
theorem test_wf_memory_refuses_outside : Memory.wf [(256, 1)] = false := by decide

/-! ## Decoding: words written out from 30_encoding.md R70 to R74 -/

theorem test_decode_immediates : decodeOp defaultOpcodeMap 0b00000001 0b10000001 = some (.ldaImm 0x81) ∧
    decodeOp defaultOpcodeMap 0b00000010 0b00000111 = some (.ldbImm 7) := by decide
theorem test_decode_arithmetic : decodeOp defaultOpcodeMap 0b00000011 0 = some .add ∧ decodeOp defaultOpcodeMap 0b00000100 0 = some .adc ∧
    decodeOp defaultOpcodeMap 0b00000101 3 = some (.subAImm 3) ∧ decodeOp defaultOpcodeMap 0b00000110 0x2A = some (.cmpAImm 0x2A) ∧
    decodeOp defaultOpcodeMap 0b00000111 0 = some .decA := by decide
theorem test_decode_output : decodeOp defaultOpcodeMap 0b00001000 0 = some .printA := by decide
theorem test_decode_jumps : decodeOp defaultOpcodeMap 0b00001001 5 = some (.jmp 5) ∧ decodeOp defaultOpcodeMap 0b00001010 0x40 = some (.jz 0x40) ∧
    decodeOp defaultOpcodeMap 0b00001011 0x40 = some (.jnz 0x40) := by decide
theorem test_decode_memory : decodeOp defaultOpcodeMap 0b00001100 0x90 = some (.ldaMem 0x90) ∧
    decodeOp defaultOpcodeMap 0b00001101 0x80 = some (.staMem 0x80) := by decide
theorem test_decode_stack : decodeOp defaultOpcodeMap 0b00001110 0 = some .pushA ∧ decodeOp defaultOpcodeMap 0b00001111 0 = some .popA ∧
    decodeOp defaultOpcodeMap 0b00010000 0 = some .pushB ∧ decodeOp defaultOpcodeMap 0b00010001 0 = some .popB := by decide
theorem test_decode_call_return : decodeOp defaultOpcodeMap 0b00010010 8 = some (.call 8) ∧
    decodeOp defaultOpcodeMap 0b00010011 0 = some .ret := by decide
theorem test_decode_halt : decodeOp defaultOpcodeMap 0b00010100 0 = some .halt := by decide
theorem test_decode_rejects : mnemonicOf defaultOpcodeMap 0x00 = none ∧ mnemonicOf defaultOpcodeMap 0x15 = none ∧
    mnemonicOf defaultOpcodeMap 0xFF = none := by decide
theorem test_decode_rejects_by_name : decodeWith defaultOpcodeMap [] = .error .noBytes ∧
    decodeWith defaultOpcodeMap [0x15, 0x01] = .error (.unrecognizedOpcode 0x15) ∧
    decodeWith defaultOpcodeMap [0x12] = .error (.operandMissing .CALL) := ⟨rfl, rfl, rfl⟩
theorem test_decode_table_word : decodeTableWord 16 0x0501 = some (.ldaImm 5) ∧ decodeTableWord 8 0x14 = some .halt ∧
    decodeTableWord 8 0x0501 = some (.ldaImm 0) ∧ decodeTableWord 16 0x8000 = none := by decide

/-! ## Reset and the fetch of an instruction -/

theorem test_reset_values : (State.reset.pc, State.reset.a, State.reset.b, State.reset.sp, State.reset.z, State.reset.c) =
    ((0, 0, 0, 0xFF, false, false) : Byte × Byte × Byte × Byte × Bool × Bool) := by decide
/-- E6: zero-filled memory halts the core at its first step. -/
theorem test_reset_runs_data : (run1 State.reset).map (fun t => (t.halted, t.pc, t.haltCause)) = some (true, 1, .undefinedOpcode 0) := by decide
theorem test_fetch_word : (run1 (State.reset.withFetchWord 16 0x0501)).map State.a = some 5 := by decide
theorem test_fetch_word_one_byte : (run1 (State.reset.withFetchWord 8 0x14)).map (fun t => (t.haltCause, t.pc)) = some (.haltInstr, 1) := by decide
theorem test_fetch_word_at_the_top : (run1 ((vec 0xFF []).withFetchWord 16 0x2A01)).map (fun t => (t.a, t.pc)) = some (0x2A, 1) := by decide

/-! ## One step of each instruction (95_test_vectors.md section 2) -/

/-- L1. -/
theorem test_lda_imm_zero : (run1 { vec 0x10 [0x01, 0x00] with a := 5, c := true }).map (fun t => (t.a, t.z, t.c, t.pc)) = some (0, true, true, 0x12) := by decide
/-- L5. -/
theorem test_lda_imm_wraps : (run1 { vec 0xFF [0x01, 0x2A] with z := true }).map (fun t => (t.a, t.z, t.pc)) = some (0x2A, false, 1) := by decide
/-- L3. -/
theorem test_ldb_imm : (run1 { vec 0x10 [0x02, 0x07] with a := 5, z := true }).map (fun t => (t.b, t.z, t.a)) = some (7, false, 5) := by decide
/-- L4. -/
theorem test_ldb_imm_z_follows_b : (run1 { vec 0x10 [0x02, 0x00] with a := 5, b := 9 }).map (fun t => (t.b, t.z, t.a)) = some (0, true, 5) := by decide
/-- A2. -/
theorem test_add_carries : (run1 { vec 0 [0x03] with a := 0xFF, b := 1 }).map (fun t => (t.a, t.c, t.z)) = some (0, true, true) := by decide
/-- A3. -/
theorem test_add_ignores_carry : (run1 { vec 0 [0x03] with a := 0xFF, b := 0xFF, c := true }).map (fun t => (t.a, t.c, t.z)) = some (0xFE, true, false) := by decide
/-- A6. -/
theorem test_adc_511 : (run1 { vec 0 [0x04] with a := 0xFF, b := 0xFF, c := true }).map (fun t => (t.a, t.c, t.z)) = some (0xFF, true, false) := by decide
/-- A8. -/
theorem test_adc_carry_in : (run1 { vec 0 [0x04] with c := true }).map (fun t => (t.a, t.c, t.z)) = some (1, false, false) := by decide
/-- A11. -/
theorem test_sub_wraps : (run1 { vec 0 [0x05, 5] with a := 3 }).map (fun t => (t.a, t.z, t.c)) = some (0xFE, false, false) := by decide
/-- A10. -/
theorem test_sub_keeps_carry : (run1 { vec 0 [0x05, 3] with a := 0x0A, c := true }).map (fun t => (t.a, t.z, t.c)) = some (7, false, true) := by decide
/-- A15. -/
theorem test_cmp_equal : (run1 { vec 0 [0x06, 0x2A] with a := 0x2A, c := true }).map (fun t => (t.z, t.a, t.c)) = some (true, 0x2A, true) := by decide
/-- A16. -/
theorem test_cmp_less : (run1 { vec 0 [0x06, 0x2B] with a := 0x2A, z := true }).map (fun t => (t.z, t.a)) = some (false, 0x2A) := by decide
/-- A20. -/
theorem test_dec_to_zero : (run1 { vec 0 [0x07] with a := 1 }).map (fun t => (t.a, t.z)) = some (0, true) := by decide
/-- A21. -/
theorem test_dec_wraps : (run1 { vec 0 [0x07] with z := true }).map (fun t => (t.a, t.z)) = some (0xFF, false) := by decide
/-- O2. -/
theorem test_print_appends : (run1 { vec 0 [0x08] with out := [12] }).map (fun t => (t.out, t.z)) = some ([12, 0], false) := by decide
/-- J7. -/
theorem test_jmp_self : (run1 (vec 0x20 [0x09, 0x20])).map (fun t => (t.pc, t.halted)) = some (0x20, false) := by decide
/-- J2. -/
theorem test_jz_taken : (run1 { vec 0x10 [0x0A, 0x40] with z := true }).map State.pc = some 0x40 := by decide
/-- J6. -/
theorem test_jz_not_taken_wraps : (run1 (vec 0xFF [0x0A, 0x40])).map State.pc = some 1 := by decide
/-- J4. -/
theorem test_jnz_taken : (run1 (vec 0x10 [0x0B, 0x40])).map State.pc = some 0x40 := by decide
/-- J5. -/
theorem test_jnz_not_taken : (run1 { vec 0x10 [0x0B, 0x40] with z := true }).map State.pc = some 0x12 := by decide
/-- M3. -/
theorem test_lda_mem_own_opcode : (run1 (vec 0x10 [0x0C, 0x10])).map (fun t => (t.a, t.pc)) = some (0x0C, 0x12) := by decide
/-- M8. -/
theorem test_lda_mem_no_watch : (run1 { vec 0x10 [0x0C, 0x90] with wp := some 0x90 }).map (fun t => (t.watchHit, t.lastWrite)) = some (false, none) := by decide
/-- M5. -/
theorem test_sta_mem_watch : (run1 { vec 0x10 [0x0D, 0x80] with wp := some 0x80 }).map (fun t => (t.load 0x80, t.lastWrite, t.watchHit)) = some (0, some 0x80, true) := by decide
/-- M7: the next fetch reads the byte stored. -/
theorem test_sta_mem_seen_by_fetch : (run1 { vec 0x10 [0x0D, 0x12] with a := 0x14 }).bind (fetchInstr defaultOpcodeMap) = some .halt := by decide
/-- M6: the latch is sticky. -/
theorem test_sta_mem_watch_sticky : (run1 { vec 0x10 [0x0D, 0x81] with wp := some 0x80, watchHit := true }).map (fun t => (t.lastWrite, t.watchHit)) = some (some 0x81, true) := by decide
/-- S1. -/
theorem test_push_a : (run1 { vec 0 [0x0E] with a := 0x2A }).map (fun t => (t.load 0xFF, t.sp)) = some (0x2A, 0xFE) := by decide
/-- S7. -/
theorem test_push_a_no_watch : (run1 { vec 0 [0x0E] with wp := some 0xFF }).map (fun t => (t.watchHit, t.lastWrite, t.sp)) = some (false, none, 0xFE) := by decide
/-- S6. -/
theorem test_pop_a_underflow : (run1 ((vec 0x10 [0x0F]).store 0 1)).map (fun t => (t.sp, t.a, t.z)) = some (0, 1, false) := by decide
/-- S3. -/
theorem test_pop_a_zero : (run1 { vec 0 [0x0F] with sp := 0xFE }).map (fun t => (t.sp, t.a, t.z)) = some (0xFF, 0, true) := by decide
/-- S2. -/
theorem test_push_b : (run1 { vec 0 [0x10] with b := 0x10, sp := 0xFE }).map (fun t => (t.load 0xFE, t.sp)) = some (0x10, 0xFD) := by decide
/-- S4. -/
theorem test_pop_b : (run1 { (vec 0 [0x11]).store 0xFE 7 with sp := 0xFD }).map (fun t => (t.sp, t.b, t.z)) = some (0xFE, 7, false) := by decide
/-- K1. -/
theorem test_call : (run1 (vec 4 [0x12, 8])).map (fun t => (t.load 0xFF, t.sp, t.pc)) = some (6, 0xFE, 8) := by decide
/-- K2: the push overwrites the operand byte already fetched. -/
theorem test_call_wraps : (run1 (vec 0xFE [0x12, 0x40])).map (fun t => (t.load 0xFF, t.sp, t.pc)) = some (0, 0xFE, 0x40) := by decide
/-- K3. -/
theorem test_ret : (run1 { (vec 0 [0x13]).store 0xFF 6 with sp := 0xFE, z := true }).map (fun t => (t.sp, t.pc, t.z)) = some (0xFF, 6, true) := by decide
/-- K4. -/
theorem test_ret_empty_stack : (run1 ((vec 0x10 [0x13]).store 0 1)).map (fun t => (t.sp, t.pc)) = some (0, 1) := by decide
/-- H5. -/
theorem test_halt_wraps : (run1 (vec 0xFF [0x14])).map (fun t => (t.halted, t.pc, t.haltCause)) = some (true, 0, .haltInstr) := by decide
/-- H3. -/
theorem test_unrecognized : (run1 (vec 0x10 [0xFF])).map (fun t => (t.halted, t.pc, t.haltCause)) = some (true, 0x11, .undefinedOpcode 0xFF) := by decide
/-- H4. -/
theorem test_halted_no_op : run1 { vec 7 [0x08] with halted := true } = some { vec 7 [0x08] with halted := true } := by decide

/-! ## The trace, the texts and the disassembler -/

/-- T1, the third entry. -/
theorem test_trace_entry : (run1 { vec 4 [0x03] with a := 5, b := 7 }).map State.trace =
    some [.exec ⟨4, 3, some .ADD, none, ⟨5, 7, 0xFF, false, false⟩, ⟨0x0C, 7, 0xFF, false, false⟩, 5, false⟩] := by decide
/-- E3's disassembly (30_encoding.md R84, R85). -/
theorem test_disassembly : (disassemble defaultOpcodeMap (vec 0 [0x09, 0x05, 0x01, 0x01, 0x07, 0x14]).mem 0 5).map listingText =
    ["JMP 0x05".toList, "LDA_IMM 0x01".toList, "DEC_A".toList, "HALT".toList, "DB 0x00".toList] := by decide
/-- O3, and the shortest numerals (42_output.md R141). -/
theorem test_decimal_text : decimalText 0 = "0".toList ∧ decimalText 12 = "12".toList ∧ decimalText 105 = "105".toList ∧
    decimalText 255 = "255".toList := by decide
/-- 60_exceptions.md R213, R214. -/
theorem test_trace_text : traceText (.exec ⟨6, 0x14, some .HALT, none, ⟨0x0C, 7, 0xFF, false, true⟩, ⟨0x0C, 7, 0xFF, false, true⟩, 7, true⟩) =
    "0x06: HALT | A 0x0C->0x0C B 0x07->0x07 SP 0xFF->0xFF Z 0->0 C 1->1 | PC->0x07 HALT".toList ∧
    traceText .rollback = "<< step back".toList := by decide
theorem test_digits : (List.range 16).map (fun n => digitValue 16 (digitChar n)) = (List.range 16).map some ∧
    "09afAFgG:/".toList.map (digitValue 16) = [some 0, some 9, some 10, some 15, some 10, some 15, none, none, none, none] ∧
    "9aA".toList.map (digitValue 10) = [some 9, none, none] := by decide
theorem test_parse_number : parseNumber "0x80".toList = some 0x80 ∧ parseNumber "10".toList = some 10 ∧ parseNumber "0X10".toList = none ∧
    parseNumber "-1".toList = none ∧ parseNumber "0x".toList = none ∧ parseNumber [] = none := by decide

/-! ## The assembler, under a test spelling of the keyword -/

/-- E3: a forward reference, and a comment, a comma and lower case. -/
theorem test_assemble_forward : assemble { smallConfig with opcodeMap := defaultOpcodeMap }
    "JMP skip ; over\nlda_imm, 1\nDEC_A\n\nskip:\nHALT".toList = .ok [0x09, 0x05, 0x01, 0x01, 0x07, 0x14] := by rfl
/-- A constant wins over a label of its name (30_encoding.md R95). -/
theorem test_assemble_constant : assemble { smallConfig with opcodeMap := defaultOpcodeMap }
    "x EQU 0x102\nx:\nLDA_IMM x".toList = .ok [0x01, 0x02] := by rfl
/-- The kind and the line of the error a source text gives, where it gives one. -/
def errorOf (src : String) : Option (AsmErrorKind × Nat) :=
  match assemble smallConfig src.toList with
  | .ok _ => none
  | .error e => some (e.kind, e.line)

theorem test_assemble_line_errors : ["HALT\nFOO", "JMP", "JMP q", "ADD 1"].map errorOf =
    [some (.unknownInstruction, 2), some (.missingOperand, 1), some (.unknownLabel, 1), some (.extraTokens, 1)] := by rfl
theorem test_assemble_name_errors : ["q:\nq:", "q EQU 1\nq EQU 2", "q EQU z"].map errorOf =
    [some (.duplicateLabel, 2), some (.duplicateConstant, 2), some (.invalidConstantValue, 1)] := by rfl
/-- Only a newline ends a line (log entry 14). -/
theorem test_assemble_line_end : errorOf "HALT\r\nFOO" = some (.unknownInstruction, 2) ∧ errorOf "HALT\rFOO" = some (.extraTokens, 1) := by
  exact ⟨rfl, rfl⟩

/-! ## Load and the host -/

/-- R-2. -/
theorem test_load_wraps : ((vec 0xFF [0xAA, 0xBB, 0xCC]).load 0xFF, (vec 0xFF [0xAA, 0xBB, 0xCC]).load 1, (vec 0xFF [0xAA]).pc) =
    ((0xAA, 0xCC, 0xFF) : Byte × Byte × Byte) := by decide
/-- `load(image)`, with `start` omitted, loads at 0 (R7, R251). -/
theorem test_load_default_start : (nextOf (hostCommand smallConfig (.load [0xAA]) (sess 7 [0x33]))).map
    (fun r => (r.1.core.pc, r.1.core.load 0, r.1.core.load 7, r.1.start)) = some (0, 0xAA, 0, 0) := by decide
/-- R-3: the later byte wins. -/
theorem test_load_overwrites : (loadImage (List.replicate 256 0x11 ++ [0x22]) 0 State.reset).load 0 = 0x22 := by decide +kernel
/-- A restore clears Halted, and appends one rollback entry (60_exceptions.md R222). -/
theorem test_restore : (restore 200 (capture State.reset) { State.reset with halted := true, a := 7, wp := some 9 }) =
    { State.reset with trace := [.rollback], wp := some 9 } := by decide
/-- E5: a breakpoint at `PC` stops a batch with no step. -/
theorem test_batch_breakpoint : (nextOf ((Session.setBreakpoint (sess 0 [0x08]) (some "0x00".toList)).1.runBatch defaultConfig)).map
    (fun r => (r.1.core.pc, r.1.core.out, r.2)) = some (0, [], .batch (some .breakpoint)) := by decide
/-- R236: `reset()` loads the image assembled, not the one loaded since, at the start of the last load. -/
theorem test_reset_reloads_assembled : (nextOf (({ sess 7 [0x33] with program := some [0xEB] } : Session).reset)).map
    (fun r => (r.1.core.load 7, r.1.core.pc, r.2)) = some (0xEB, 7, .done) := by decide
/-- R66: an inspection reports the latches and the watchpoint too. -/
theorem test_inspection : (fun i : Inspection => (i.sp, i.lastWrite, i.watchHit, i.wp))
    (inspection { State.reset with lastWrite := some 3, watchHit := true, wp := some 4 }) = (0xFF, some 3, true, some 4) := by decide
/-- `runBatch` is refused before the first load (10_state.md R41). -/
theorem test_no_step_before_load : nextOf (Session.constructed.runBatch smallConfig) = none := by rfl

/-! ## Witnesses of the obligations' hypotheses -/

theorem witness_DecodeOfEncodeIsTheInstruction : OpcodeMap.wf smallConfig.opcodeMap = true ∧
    decodeWith smallConfig.opcodeMap [0xFE, 0x07, 0x33] = .ok (.ldaImm 7, [0x33]) := ⟨by decide, rfl⟩

theorem witness_EveryMapLeaves236BytesUnrecognized : OpcodeMap.wf smallConfig.opcodeMap = true := by decide

theorem witness_DisassemblerAgreesWithTheEngine : fetchInstr defaultOpcodeMap (vec 0xFF [0x0C, 0x10]) = some (.ldaMem 0x10) ∧
    fetchInstr defaultOpcodeMap State.reset = none ∧ (vec 3 [0x01]).mem.read 3 = (vec 0 [0x01]).mem.read (vec 0 [0x01]).pc := by decide

theorem witness_LoadedImagesDisassembleToTheirProgram :
    (OpcodeMap.wf defaultOpcodeMap = true ∧ (encodeProgram defaultOpcodeMap (List.replicate 128 (.jmp 5))).length ≤ 256 ∧
      (encodeProgram defaultOpcodeMap (List.replicate 128 (.jmp 5))).length = 256) ∧
    assemble smallConfig "HALT".toList = .ok [0xEB] := ⟨⟨by decide, by decide +kernel, by decide +kernel⟩, rfl⟩

theorem witness_StepRunsTheDecodedInstruction : (vec 0xFF [0x01, 0x2A]).halted = false ∧
    decode [(vec 0xFF [0x01, 0x2A]).load (vec 0xFF [0x01, 0x2A]).pc, (vec 0xFF [0x01, 0x2A]).load ((vec 0xFF [0x01, 0x2A]).pc + 1)] =
      .ok (.ldaImm 0x2A, []) := ⟨rfl, rfl⟩

theorem witness_EngineRunsTheInstructionAtPc : OpcodeMap.wf smallConfig.opcodeMap = true ∧ (vec 0xFF [0xFE, 0x2A]).halted = false ∧
    instrAtPc smallConfig.opcodeMap (.ldaImm 0x2A) (vec 0xFF [0xFE, 0x2A]) :=
  ⟨by decide, rfl, rfl, fun k hk => by cases hk; rfl⟩

theorem witness_HaltedStepChangesNothing : ({ State.reset with halted := true } : State).halted = true := rfl

theorem witness_UnrecognizedOpcodeHalts : (vec 0x10 [0xFF]).halted = false ∧ ∀ mn, defaultOpcodeMap mn ≠ (vec 0x10 [0xFF]).load (vec 0x10 [0xFF]).pc :=
  ⟨rfl, fun mn => by cases mn <;> decide⟩

theorem witness_ExecutionNeverRaisesErrors : State.reset.halted = false ∧ fetchInstr defaultConfig.opcodeMap State.reset = none := by decide

theorem witness_AddAndAdcAreExactWithCarry : State.reset.c = false := rfl

theorem witness_ArithmeticTouchesOnlyAAndTheFlags : Instr.decA.mnemonic ∈ [Mnemonic.ADD, .ADC, .SUB_A_IMM, .CMP_A_IMM, .DEC_A] := by decide

theorem witness_LoadAndStoreAccessOneByte : (vec 0 [0x0C, 0x80]).mem.wf = true ∧ ((vec 0 [0x0C, 0x80]).mem.write 0x90 1).wf = true ∧
    ((vec 0 [0x0C, 0x80]).mem.write 0x90 1).read (absAddr 0x80) = (vec 0 [0x0C, 0x80]).mem.read (absAddr 0x80) := by decide

theorem witness_MemWriteSetsOneCell : State.reset.mem.wf = true ∧ (∃ t, exec .pushA State.reset = .next t) ∧ Instr.pushA.mnemonic ≠ .STA_MEM :=
  ⟨rfl, ⟨_, rfl⟩, by decide⟩

theorem witness_SixteenBitSumsChainThroughCarry :
    ∃ s t u v : State, exec .add s = .next t ∧ u.c = t.c ∧ exec .adc u = .next v ∧ t.c = true :=
  ⟨{ State.reset with a := 0xFF, b := 1 }, _, { State.reset with c := true, a := 1 }, _, rfl, rfl, rfl, rfl⟩

theorem witness_StaMemStoresAndCompares : (vec 0x10 [0x0D, 0x80]).mem.wf = true := by decide

theorem witness_StackDiscipline : State.reset.mem.wf = true ∧ ({ State.reset with sp := 0 } : State).sp = 0x00 ∧ State.reset.sp = 0xFF ∧
    ∃ t, exec .pushA State.reset = .next t := ⟨rfl, rfl, rfl, _, rfl⟩

theorem witness_CallPushesAndRetPops : (vec 4 [0x12, 8]).mem.wf = true := by decide

theorem witness_PushAThenPopBCopiesAToB : OpcodeMap.wf defaultConfig.opcodeMap = true ∧ (vec 7 [0x0E, 0x11]).mem.wf = true ∧
    (vec 7 [0x0E, 0x11]).halted = false ∧ (vec 7 [0x0E, 0x11]).load (vec 7 [0x0E, 0x11]).pc = defaultConfig.opcodeMap .PUSH_A ∧
    (vec 7 [0x0E, 0x11]).load ((vec 7 [0x0E, 0x11]).pc + 1) = defaultConfig.opcodeMap .POP_B ∧
    (vec 7 [0x0E, 0x11]).sp ≠ (vec 7 [0x0E, 0x11]).pc + 1 := by decide

theorem witness_CallToARetComesBack : OpcodeMap.wf defaultConfig.opcodeMap = true ∧ (vec 4 [0x12, 6, 0x13]).mem.wf = true ∧
    (vec 4 [0x12, 6, 0x13]).halted = false ∧ instrAtPc defaultConfig.opcodeMap (.call 6) (vec 4 [0x12, 6, 0x13]) ∧
    (vec 4 [0x12, 6, 0x13]).load 6 = defaultConfig.opcodeMap .RET ∧ (vec 4 [0x12, 6, 0x13]).sp ≠ 6 :=
  ⟨by decide, by decide, rfl, ⟨rfl, fun k hk => by cases hk; rfl⟩, rfl, by decide⟩

theorem witness_SelfJumpNeverHalts : OpcodeMap.wf defaultConfig.opcodeMap = true ∧ (vec 0x20 [0x09, 0x20]).halted = false ∧
    instrAtPc defaultConfig.opcodeMap (.jmp (vec 0x20 [0x09, 0x20]).pc) (vec 0x20 [0x09, 0x20]) :=
  ⟨by decide, rfl, rfl, fun k hk => by cases hk; rfl⟩

/-- Both clauses: a store to the next opcode, and one to the next operand. -/
theorem witness_StoresAreSeenByTheNextFetch : ∀ x, x ∈ ([2, 3] : List Byte) →
    (vec 0 [0x0D, x]).mem.wf = true ∧ (vec 0 [0x0D, x]).halted = false ∧ fetchInstr defaultConfig.opcodeMap (vec 0 [0x0D, x]) = some (.staMem x) ∧
    storeOf (.staMem x) (afterFetch (.staMem x) (vec 0 [0x0D, x])) = some (x, 0) ∧
    ∃ t, engineStep defaultConfig (vec 0 [0x0D, x]) = .next t ∧ t.pc = 2 := by
  intro x h
  simp only [List.mem_cons, List.not_mem_nil, or_false] at h
  rcases h with rfl | rfl <;> exact ⟨by decide, rfl, by decide, rfl, _, rfl, rfl⟩

theorem witness_CarryIsWrittenByAdditionsAndReadByAdc : ∃ t u v, exec .decA State.reset = .next t ∧ Instr.decA ≠ .add ∧ Instr.decA ≠ .adc ∧
    exec .add State.reset = .next u ∧ exec .adc State.reset = .next v := ⟨_, _, _, rfl, by decide, by decide, rfl, rfl⟩

/-- One instruction of each clause. -/
theorem witness_ZeroFlagWritersAndReaders : (∃ t u v w x, exec .popA State.reset = .next t ∧ exec .popB State.reset = .next u ∧
    exec (.cmpAImm 0) State.reset = .next v ∧ exec (.ldaMem 0) State.reset = .next w ∧ exec .ret State.reset = .next x) ∧
    (∀ k, Instr.adc ≠ .jz k) ∧ ∀ k, Instr.adc ≠ .jnz k :=
  ⟨⟨_, _, _, _, _, rfl, rfl, rfl, rfl, rfl⟩, fun k => by simp, fun k => by simp⟩

theorem witness_AccumulatorWritersAndReaders : (∃ t, exec .popB State.reset = .next t ∧
      Instr.popB.mnemonic ∉ [Mnemonic.LDA_IMM, .LDA_MEM, .ADD, .ADC, .SUB_A_IMM, .DEC_A, .POP_A]) ∧
    Instr.popA.mnemonic ∉ [Mnemonic.ADD, .ADC, .SUB_A_IMM, .CMP_A_IMM, .DEC_A, .PRINTA, .STA_MEM, .PUSH_A] ∧
    Instr.popA.mnemonic ∈ [Mnemonic.LDA_IMM, .LDA_MEM, .POP_A] ∧ ∃ t, exec (.cmpAImm 7) State.reset = .next t :=
  ⟨⟨_, rfl, by decide⟩, by decide, by decide, _, rfl⟩

/-- One instruction of each clause; `SP` wraps at both ends in `test_push_a`, `test_pop_a_underflow`. -/
theorem witness_DataRegisterAndStackPointerWriters : (∃ t u v, exec .pushA State.reset = .next t ∧ exec .ret State.reset = .next u ∧
      exec .halt State.reset = .next v) ∧ Instr.pushA.mnemonic ∈ [Mnemonic.PUSH_A, .PUSH_B, .CALL] ∧
    Instr.ret.mnemonic ∈ [Mnemonic.POP_A, .POP_B, .RET] ∧ Instr.halt.mnemonic ∉ [Mnemonic.PUSH_A, .PUSH_B, .CALL, .POP_A, .POP_B, .RET] ∧
    Instr.halt.mnemonic ∉ [Mnemonic.LDB_IMM, .POP_B] ∧ Instr.halt.mnemonic ∉ [Mnemonic.ADD, .ADC, .PUSH_B] :=
  ⟨⟨_, _, _, rfl, rfl, rfl⟩, by decide, by decide, by decide, by decide, by decide⟩

theorem witness_StepsWriteOnlyTheStoredCell : (vec 0 [0x0E]).mem.wf = true ∧ ∃ t, engineStep defaultConfig (vec 0 [0x0E]) = .next t :=
  ⟨by decide, _, rfl⟩

/-- `LDA_MEM 0x80` over two memories that differ in cell 0x90 and agree where the step reads. -/
theorem witness_StepsReadOnlyFetchedAndLoadedCells : ∃ (s t : State) (m : Memory), s = vec 0 [0x0C, 0x80] ∧ m = s.mem.write 0x90 1 ∧ s.mem.wf = true ∧
    m.wf = true ∧ m.read s.pc = s.mem.read s.pc ∧
    (∀ i, fetchInstr defaultConfig.opcodeMap s = some i →
      (i.size = 2 → m.read (s.pc + 1) = s.mem.read (s.pc + 1)) ∧ (∀ x, loadAddr i (afterFetch i s) = some x → m.read x = s.mem.read x)) ∧
    engineStep defaultConfig s = .next t := by
  refine ⟨_, _, _, rfl, rfl, by decide, by decide, by decide, ?_, rfl⟩
  intro i h
  rw [show fetchInstr defaultConfig.opcodeMap (vec 0 [0x0C, 0x80]) = some (.ldaMem 0x80) by decide] at h
  cases h
  exact ⟨fun _ => by decide, fun x hx => by cases hx; decide⟩

theorem witness_ProgramsCannotObserveDebugState : sameProgramView { State.reset with wp := some 5, out := [1] } State.reset ∧
    ∃ t, engineRun defaultConfig 1 { State.reset with wp := some 5, out := [1] } = .next t := ⟨⟨rfl, rfl, rfl, rfl⟩, _, rfl⟩

theorem witness_SameImageGivesSameTraceAndOutput : ∃ t, engineRun defaultConfig 1 (loadImage [0x08] 0 { State.reset with wp := some 5 }) = .next t := ⟨_, rfl⟩

theorem witness_OutputIsAppendOnly : ∃ t, engineStep defaultConfig (vec 0 [0x08]) = .next t ∧ engineRun defaultConfig 1 (vec 0 [0x08]) = .next t := ⟨_, rfl, rfl⟩

/-- A step that raises the latch, from a state in which it is down, and one from a state in which it is up. -/
theorem witness_OnlyStaMemTouchesTheDebugLatches : (∃ t, engineStep defaultConfig { vec 0 [0x0D, 0x80] with wp := some 0x80 } = .next t ∧
      t.lastWrite ≠ none ∧ t.watchHit ≠ false) ∧ ∃ t, engineStep defaultConfig { vec 0 [0x08] with watchHit := true } = .next t :=
  ⟨⟨_, rfl, by decide, by decide⟩, _, rfl⟩

theorem witness_HaltAndWatchHitExcludeEachOther : ∃ t, engineStep defaultConfig (vec 0 [0x14]) = .next t ∧ t.halted = true := ⟨_, rfl, rfl⟩

theorem witness_HaltedIsSetAndClearedAsStated : (State.reset.halted = false ∧ ∃ t, engineStep defaultConfig State.reset = .next t) ∧
    ∃ (q r : Session) (rep : Report), hostCommand smallConfig .stepBack q = .next (r, rep) ∧ q.core.halted = true ∧ r.core.halted = false :=
  ⟨⟨rfl, _, rfl⟩, { Session.constructed with core := { State.reset with halted := true }, history := [capture State.reset] }, _, _, rfl, rfl, rfl⟩

/-- The clauses on setting: a step onto an unrecognized opcode, from a session with the invariant, and the restore of a halted snapshot. -/
theorem witness_HaltedIsSetAndClearedAsStated_sets :
    (∃ q r rep, hostCommand smallConfig .step q = .next (r, rep) ∧ q.core.halted = false ∧ r.core.halted = true ∧ q.Inv smallConfig) ∧
    ∃ q r rep, hostCommand smallConfig .stepBack q = .next (r, rep) ∧ q.core.halted = false ∧ r.core.halted = true := by
  constructor
  · refine ⟨{ Session.constructed with core := State.reset, loaded := true }, _, _, rfl, rfl, rfl, fun _ => ⟨rfl, by decide, rfl, rfl, rfl, rfl⟩, ?_, by decide, ?_⟩
    · intro p hp; cases hp
    · simp [Session.constructed]
  · exact ⟨{ Session.constructed with core := State.reset, history := [capture { State.reset with halted := true }] }, _, _, rfl, rfl, rfl⟩

theorem witness_EachExecutingStepAppendsItsTraceEntry : (State.reset.halted = false ∧ ∃ t, engineStep smallConfig State.reset = .next t) ∧
    ∃ t, engineStep smallConfig { State.reset with halted := true } = .next t := ⟨⟨rfl, _, rfl⟩, _, rfl⟩

theorem witness_EveryStepKeepsTheInvariant : State.reset.Inv smallConfig ∧ ∃ t, engineStep smallConfig State.reset = .next t :=
  ⟨⟨rfl, by decide, rfl, rfl, rfl, rfl⟩, _, rfl⟩

theorem witness_EveryHostCommandKeepsTheInvariant : Session.constructed.Inv smallConfig ∧
    ∃ r rep, hostCommand smallConfig (.load [0x08]) Session.constructed = .next (r, rep) :=
  ⟨⟨fun h => by simp [Session.constructed] at h, by simp [Session.constructed], by simp [Session.constructed], by simp [Session.constructed]⟩, _, _, rfl⟩

theorem witness_MemoriesThatReadAlikeAreEqual : Memory.wf [(0, 1), (255, 2)] = true ∧ (∀ x, Memory.read [(0, 1), (255, 2)] x = Memory.read [(0, 1), (255, 2)] x) ∧
    (0 : Byte) ≠ 255 := ⟨by decide, fun _ => rfl, by decide⟩

/-- The first clause's last byte, which nothing overwrites, and the second clause's cell outside an image. -/
theorem witness_LoadResetsAndCopiesTheImage : (∀ l, 1 < l → l < ([0xAA, 0xBB] : List Byte).length → BitVec.ofNat 8 (0xFF + l) ≠ BitVec.ofNat 8 (0xFF + 1)) ∧
    ∀ j, j < ([0xAA, 0xBB] : List Byte).length → BitVec.ofNat 8 (0xFF + j) ≠ (0x01 : Byte) := by
  constructor
  · intro l h1 h2
    have : l < 2 := h2
    omega
  · intro j h
    match j, h with
    | 0, _ => decide
    | 1, _ => decide

/-- As many steps as the history holds. -/
theorem witness_StepBacksUndoStepsExactly : (sess 0 [0xF7, 0xF7]).loaded = true ∧ 1 ≤ 2 ∧ 2 ≤ smallConfig.historyCap ∧
    (∃ r, sessionSteps smallConfig 2 (sess 0 [0xF7, 0xF7]) = .next r) ∧
    (∀ k u, k < 2 → sessionSteps smallConfig k (sess 0 [0xF7, 0xF7]) = .next u → u.core.halted = false) := by
  refine ⟨rfl, by decide, by decide, ⟨_, rfl⟩, ?_⟩
  intro k u hk h
  match k, hk with
  | 0, _ => cases h; rfl
  | 1, _ => cases h; rfl

/-- The four ways a batch can end, each reached. -/
theorem witness_BatchRunsStepsUntilAStop :
    (sess 0 []).loaded = true ∧ (sess 0 []).core.halted = false ∧
    (∃ r, (Session.runBatch smallConfig { sess 0 [0xF7] with bp := some 0 }) = .next (r, .batch (some .breakpoint))) ∧
    (∃ r, (Session.runBatch smallConfig { sess 0 [] with core := { vec 0 [0xF2, 0x80] with wp := some 0x80 } }) = .next (r, .batch (some .watchHit))) ∧
    (∃ r, (Session.runBatch smallConfig (sess 0 [])) = .next (r, .batch (some .halted))) ∧
    ∃ r, (Session.runBatch smallConfig (sess 0 [0xF7, 0xF7])) = .next (r, .batch none) :=
  ⟨rfl, rfl, ⟨_, rfl⟩, ⟨_, rfl⟩, ⟨_, rfl⟩, _, rfl⟩

theorem witness_StepOncePassesTheBreakpoint : (sess 0 [0xF7]).loaded = true ∧ (sess 0 [0xF7]).core.halted = false := ⟨rfl, rfl⟩

/-- The texts of each clause, at the ends of the range. -/
theorem witness_HostEditsWriteOneThing : (sess 0 [0x08]).core.mem.wf = true ∧ parseNumber "0xFF".toList = some 255 ∧ parseNumber "256".toList = some 256 ∧
    parseNumber "x".toList = none ∧ "x".toList ≠ [] ∧ parseNumber [] = none := by decide

theorem witness_OnlyTheControllerMovesTheWatchpoint : (∃ r rep, hostCommand smallConfig (.setWatchpoint (some "7".toList))
      { sess 0 [] with core := State.reset } = .next (r, rep) ∧ r.core.wp ≠ State.reset.wp) ∧
    ∃ r rep, hostCommand smallConfig .clearWatchHit { sess 0 [] with core := { State.reset with watchHit := true } } = .next (r, rep) ∧
      r.core.watchHit = false := ⟨⟨_, _, rfl, by decide⟩, _, _, rfl, rfl⟩

theorem witness_NoStepBeforeTheFirstLoad : Session.constructed.loaded = false ∧
    ({ Session.constructed with cadence := true } : Session).loaded = false ∧ ({ Session.constructed with cadence := true } : Session).cadence = true :=
  ⟨rfl, rfl, rfl⟩

theorem witness_AssemblyNeverMutatesTheMachine : (∃ e, assemble smallConfig "FOO".toList = .error e) ∧
    ∃ image, assemble smallConfig "HALT".toList = .ok image := ⟨⟨_, rfl⟩, _, rfl⟩

theorem witness_AssemblyErrorsNameALine : ∃ e, assemble smallConfig "HALT\nFOO".toList = .error e ∧ e.line = 2 := ⟨_, rfl, rfl⟩

theorem witness_LabelsAreByteOffsets : ∃ cs labels p,
    constantPass ([(1, .instruction "JMP".toList ["q".toList])] ++ (2, .label "q".toList) :: [(3, .instruction "HALT".toList [])]) [] = .ok cs ∧
    labelPass ([(1, .instruction "JMP".toList ["q".toList])] ++ (2, .label "q".toList) :: [(3, .instruction "HALT".toList [])]) 0 [] = .ok labels ∧
    emissionPass cs labels ([(1, .instruction "JMP".toList ["q".toList])] ++ (2, .label "q".toList) :: [(3, .instruction "HALT".toList [])]) = .ok p ∧
    p = [.jmp 2, .halt] := ⟨_, _, _, rfl, rfl, rfl, rfl⟩

/-- A literal, a constant, a label and an unknown name. -/
theorem witness_OperandsResolveInOrder : parseNumber "0x10".toList = some 16 ∧
    (parseNumber "k".toList = none ∧ List.lookup "k".toList [("k".toList, (1 : Byte))] = some 1) ∧
    (List.lookup "q".toList [("k".toList, (1 : Byte))] = none ∧ List.lookup "q".toList [("q".toList, (2 : Byte))] = some 2) ∧
    parseNumber "q".toList = none ∧ List.lookup "u".toList [("q".toList, (2 : Byte))] = none := by decide

theorem witness_InspectionReadsTheWholeState : (sess 0 [0x08]).loaded = true := rfl

theorem witness_ResetReloadsTheLastAssembledImage : assemble smallConfig "HALT".toList = .ok [0xEB] ∧ Session.constructed.program = none := ⟨rfl, rfl⟩

end Sys2Proof.Tests
end

section
/-! PROOF. What a load leaves in the machine (70_reset_and_hazards.md R250 to R252, 10_state.md R40): the copy of an image decides each cell by the
last byte copied to it. -/

namespace Sys2Proof.Machine

/-- The cell of an image byte: an index added to a wrapped start is the wrapped sum (70_reset_and_hazards.md R252). -/
theorem wrapAddr_add_ofNat (start j : Nat) : wrapAddr start + BitVec.ofNat 8 j = BitVec.ofNat 8 (start + j) :=
  (BitVec.ofNat_add start j).symm

/-- A cell that an image byte is copied to, and no later byte, reads as that byte: the bytes before it are overwritten, those after it go elsewhere. -/
theorem copyImage_read_last {m : Memory} (hm : m.wf = true) (x : Byte) (image : List Byte) (j : Nat) (hj : j < image.length)
    (hlast : ∀ l, j < l → l < image.length → x + BitVec.ofNat 8 l ≠ x + BitVec.ofNat 8 j) :
    (copyImage m x image).read (x + BitVec.ofNat 8 j) = image[j] := by
  induction image generalizing m x j with
  | nil => exact absurd hj (Nat.not_lt_zero j)
  | cons v rest ih =>
    rw [copyImage_cons]
    have hw : (m.write x v).wf = true := Memory.write_wf hm x v
    cases j with
    | zero =>
      have hrest : ∀ l, l < rest.length → x + 1 + BitVec.ofNat 8 l ≠ x + BitVec.ofNat 8 0 := by
        intro l hl
        rw [next_cell]
        exact hlast (l + 1) l.succ_pos (Nat.succ_lt_succ hl)
      rw [copyImage_read_other hw _ _ _ hrest]
      simp [hm]
    | succ k =>
      rw [← next_cell]
      refine ih hw (x + 1) k (Nat.lt_of_succ_lt_succ hj) fun l hkl hl => ?_
      rw [next_cell, next_cell]
      exact hlast (l + 1) (Nat.succ_lt_succ hkl) (Nat.succ_lt_succ hl)

/-- After a load, a cell that an image byte was copied to, and no later byte, reads as that byte (decision D19). -/
theorem loadImage_read_last (image : List Byte) (start : Nat) (s : State) (j : Nat) (hj : j < image.length)
    (hlast : ∀ l, j < l → l < image.length → BitVec.ofNat 8 (start + l) ≠ BitVec.ofNat 8 (start + j)) :
    (loadImage image start s).mem.read (BitVec.ofNat 8 (start + j)) = image[j] := by
  simp only [← wrapAddr_add_ofNat] at hlast ⊢
  exact copyImage_read_last Memory.wf_nil _ image j hj hlast

/-- After a load, a cell that no image byte was copied to reads as 0. -/
theorem loadImage_read_other (image : List Byte) (start : Nat) (s : State) (x : Byte)
    (hx : ∀ j, j < image.length → BitVec.ofNat 8 (start + j) ≠ x) : (loadImage image start s).mem.read x = 0 := by
  simp only [← wrapAddr_add_ofNat] at hx
  rw [loadImage_mem, copyImage_read_other Memory.wf_nil _ image x hx, Memory.read_nil]

/-- A load leaves the reset values, but for `PC`, the memory and `WP` (10_state.md R40, decision D8). -/
theorem loadImage_eq_reset (image : List Byte) (start : Nat) (s : State) :
    loadImage image start s =
      { State.reset with pc := BitVec.ofNat 8 start, mem := (loadImage image start s).mem, wp := s.wp } := rfl

/-- The command `load` loads the core's state from the start it gives, 0 where it gives none (00_scope.md R7), and is never refused. -/
theorem hostCommand_load (cfg : Config) (image : List Byte) (start : Option Nat) (q : Session) :
    hostCommand cfg (.load image start) q = .next (q.load image (startAddress start), .done) := rfl

@[simp] theorem Session.load_core (q : Session) (image : List Byte) (start : Nat) :
    (q.load image start).core = loadImage image start q.core := rfl
@[simp] theorem Session.load_start (q : Session) (image : List Byte) (start : Nat) : (q.load image start).start = start := rfl

/-- Settles O46: the cells by `copyImage_read_last` and `copyImage_read_other`, the other components and the command by their equations. -/
theorem loadResetsAndCopiesTheImage : Obligations.LoadResetsAndCopiesTheImage := by
  intro image start s
  refine ⟨⟨_, rfl, loadImage_eq_reset image start s, loadImage_read_last image start s, loadImage_read_other image start s⟩,
    rfl, ?_⟩
  rintro cfg q rfl
  exact ⟨⟨_, hostCommand_load cfg image (some start) q, q.load_core image start, q.load_start image start⟩,
    ⟨_, hostCommand_load cfg image none q, q.load_core image 0, loadImage_pc image 0 q.core, q.load_start image 0⟩⟩

end Sys2Proof.Machine
end

section
/-! PROOF. What each instruction writes and reads of the registers and flags (10_state.md R22 to R27): the state a body leaves is `effect`, so each
clause is a frame lemma of `effect` or says that a replaced component is seen nowhere else. -/

namespace Sys2Proof.Machine

/-- `C` is "Written by `ADD` and `ADC` only" (10_state.md R27). -/
theorem effect_c_of_not_addition {i : Instr} (s : State) (hadd : i ≠ .add) (hadc : i ≠ .adc) : (effect i s).c = s.c := by
  cases i <;> simp [effect] at hadd hadc ⊢

/-- The carry of an addition is that of the unreduced sum (10_state.md R27). -/
theorem addWith_c_iff (s : State) (cin : Bool) :
    (s.addWith cin).c = true ↔ 255 < s.a.toNat + s.b.toNat + bitNat cin := carryFlag_iff _

/-- `C` is "Read by `ADC` only": any other body carries the old `C` into `C` at most. -/
theorem effect_setC {i : Instr} (hi : i ≠ .adc) (s : State) (v : Bool) :
    (effect i (s.setC v)).setC v = (effect i s).setC v := by
  cases i with
  | adc => exact absurd rfl hi
  | _ => rfl

/-- `Z` is read by the conditional jumps only (10_state.md R26, decision D4). -/
theorem effect_setZ {i : Instr} (hjz : ∀ k, i ≠ .jz k) (hjnz : ∀ k, i ≠ .jnz k) (s : State) (v : Bool) :
    (effect i (s.setZ v)).setZ v = (effect i s).setZ v := by
  cases i with
  | jz k => exact absurd rfl (hjz k)
  | jnz k => exact absurd rfl (hjnz k)
  | _ => rfl

/-- The writers of `A` (10_state.md R22). -/
theorem effect_a_of_not_writer {i : Instr} (s : State)
    (hi : i.mnemonic ∉ [.LDA_IMM, .LDA_MEM, .ADD, .ADC, .SUB_A_IMM, .DEC_A, .POP_A]) : (effect i s).a = s.a := by
  cases i <;> simp [effect, Instr.mnemonic] at hi ⊢

/-- The readers of `A` (10_state.md R22). -/
theorem effect_setA {i : Instr} (s : State) (v : Byte)
    (hi : i.mnemonic ∉ [.ADD, .ADC, .SUB_A_IMM, .CMP_A_IMM, .DEC_A, .PRINTA, .STA_MEM, .PUSH_A]) :
    (effect i (s.setA v)).setA v = (effect i s).setA v := by
  cases i <;> simp only [Instr.mnemonic, List.mem_cons, true_or, or_true, not_true_eq_false] at hi <;> rfl

/-- The loads and the pop that overwrite `A` do not depend on the `A` before them. -/
theorem effect_setA_of_overwritten {i : Instr} (s : State) (v : Byte) (hi : i.mnemonic ∈ [.LDA_IMM, .LDA_MEM, .POP_A]) :
    effect i (s.setA v) = effect i s := by
  cases i <;> simp [Instr.mnemonic] at hi <;> rfl

/-- The writers of `B` (10_state.md R23). -/
theorem effect_b_of_not_writer {i : Instr} (s : State) (hi : i.mnemonic ∉ [.LDB_IMM, .POP_B]) : (effect i s).b = s.b := by
  cases i <;> simp [effect, Instr.mnemonic] at hi ⊢

/-- The readers of `B` (10_state.md R23). -/
theorem effect_setB {i : Instr} (s : State) (v : Byte) (hi : i.mnemonic ∉ [.ADD, .ADC, .PUSH_B]) :
    (effect i (s.setB v)).setB v = (effect i s).setB v := by
  cases i <;> simp [Instr.mnemonic] at hi <;> rfl

/-- The pushes and `CALL` decrement `SP` (10_state.md R24). -/
theorem effect_sp_of_push {i : Instr} (s : State) (hi : i.mnemonic ∈ [.PUSH_A, .PUSH_B, .CALL]) : (effect i s).sp = s.sp - 1 := by
  cases i <;> simp [effect, Instr.mnemonic] at hi ⊢

/-- The pops and `RET` increment `SP` (10_state.md R24). -/
theorem effect_sp_of_pop {i : Instr} (s : State) (hi : i.mnemonic ∈ [.POP_A, .POP_B, .RET]) : (effect i s).sp = s.sp + 1 := by
  cases i <;> simp [effect, Instr.mnemonic] at hi ⊢

/-- No other instruction moves `SP` (10_state.md R24). -/
theorem effect_sp_of_no_stack {i : Instr} (s : State)
    (hi : i.mnemonic ∉ [.PUSH_A, .PUSH_B, .CALL, .POP_A, .POP_B, .RET]) : (effect i s).sp = s.sp := by
  cases i <;> simp [effect, Instr.mnemonic] at hi ⊢

/-- `CMP_A_IMM` sets `Z` when `A` is its operand, as the discarded difference is then 0 (41_arithmetic.md R123). -/
theorem effect_cmpAImm_eq (k : Byte) (s : State) : effect (.cmpAImm k) (s.setA k) = (s.setA k).setZ true := by
  have hz : zeroFlag (k - k) = true := (zeroFlag_iff _).2 ((byte_sub_eq_zero k k).2 rfl)
  exact congrArg (s.setA k).setZ hz

/-- Settles O28, by the frame of `C` and the carry of the unreduced sum. -/
theorem carryIsWrittenByAdditionsAndReadByAdc : Obligations.CarryIsWrittenByAdditionsAndReadByAdc := by
  unfold Obligations.CarryIsWrittenByAdditionsAndReadByAdc
  simp only [exec_eq, mapNext_next, Host.Outcome.next.injEq, forall_eq']
  exact ⟨fun i s => effect_c_of_not_addition s, fun s => addWith_c_iff s false, fun s => addWith_c_iff s s.c,
    fun i s v hi => effect_setC hi s v, fun _ _ => rfl, rfl, fun _ _ _ => rfl⟩

/-- The loads, pops and arithmetic that write `A` leave `Z` from the byte written (10_state.md R26); `LDA_MEM` is apart (decision D3). -/
theorem effect_z_of_a_writer {i : Instr} (s : State) (hi : i.mnemonic ∈ [.LDA_IMM, .ADD, .ADC, .SUB_A_IMM, .DEC_A, .POP_A]) :
    (effect i s).z = zeroFlag (effect i s).a := by
  cases i <;> simp [Instr.mnemonic] at hi <;> rfl

/-- `LDB_IMM` and `POP_B` leave `Z` "from `B`, not from `A`" (40_immediate_loads.md R111, 45_stack.md R169). -/
theorem effect_z_of_b_writer {i : Instr} (s : State) (hi : i.mnemonic ∈ [.LDB_IMM, .POP_B]) :
    (effect i s).z = zeroFlag (effect i s).b := by
  cases i <;> simp [Instr.mnemonic] at hi <;> rfl

/-- `CMP_A_IMM k` leaves `Z` set exactly when `A` is `k`. -/
theorem effect_cmpAImm_z_iff (k : Byte) (s : State) : (effect (.cmpAImm k) s).z = true ↔ s.a = k :=
  (zeroFlag_iff _).trans (byte_sub_eq_zero s.a k)

/-- `LDA_MEM` writes `Z` exactly when the open parameter says so (decision D3). -/
theorem effect_ldaMem_z (k : Byte) (s : State) :
    (effect (.ldaMem k) s).z = if Config.ldaMemSetsZ then zeroFlag (effect (.ldaMem k) s).a else s.z := rfl

/-- Settles O29: each instruction by the lemma of its kind of writer, the rest by their equation. -/
theorem zeroFlagWritersAndReaders : Obligations.ZeroFlagWritersAndReaders := by
  unfold Obligations.ZeroFlagWritersAndReaders
  simp only [exec_eq, mapNext_next, Host.Outcome.next.injEq, forall_eq']
  refine ⟨fun i s => ?_, fun i s v hjz hjnz => effect_setZ hjz hjnz s v, rfl⟩
  cases i with
  | ldaImm k | add | adc | subAImm k | decA | popA =>
    dsimp only
    rw [effect_z_of_a_writer s (by simp [Instr.mnemonic]), zeroFlag_iff]
  | ldbImm k | popB =>
    dsimp only
    rw [effect_z_of_b_writer s (by simp [Instr.mnemonic]), zeroFlag_iff]
  | cmpAImm k => exact effect_cmpAImm_z_iff k s
  | ldaMem k =>
    dsimp only
    rw [effect_ldaMem_z]
    split
    · exact zeroFlag_iff _
    · rfl
  | printA | jmp k | jz k | jnz k | staMem k | pushA | pushB | call k | ret | halt => rfl

/-- Settles O30, by the frame of `A` and the equation of `CMP_A_IMM`. -/
theorem accumulatorWritersAndReaders : Obligations.AccumulatorWritersAndReaders := by
  unfold Obligations.AccumulatorWritersAndReaders
  simp only [exec_eq, mapNext_next, Host.Outcome.next.injEq, forall_eq']
  exact ⟨fun i s hi => effect_a_of_not_writer s hi,
    fun i s v hi => ⟨effect_setA s v hi, fun ho => effect_setA_of_overwritten s v ho⟩,
    fun k s => ⟨rfl, effect_cmpAImm_eq k s⟩⟩

/-- A decremented byte is one less mod 256. -/
theorem byte_sub_one_add_one (x : Byte) : ((x - 1).toNat + 1) % 256 = x.toNat := by bv_omega

/-- Settles O31, by the frames of `B` and of `SP`. -/
theorem dataRegisterAndStackPointerWriters : Obligations.DataRegisterAndStackPointerWriters := by
  unfold Obligations.DataRegisterAndStackPointerWriters
  simp only [exec_eq, mapNext_next, Host.Outcome.next.injEq, forall_eq']
  refine ⟨fun i s => ⟨fun hi => effect_b_of_not_writer s hi, fun hi => ?_, fun hi => ?_, fun hi => effect_sp_of_no_stack s hi⟩,
    fun i s v hi => effect_setB s v hi⟩
  · rw [effect_sp_of_push s hi, byte_sub_one_add_one]
  · rw [effect_sp_of_pop s hi, BitVec.toNat_add]; rfl

end Sys2Proof.Machine
end

section
/-! PROOF. What a program cannot see (10_state.md R36), and which steps touch what the debugger watches (R31, R32, R34) or enter Halted (R29). -/

namespace Sys2Proof.Machine

/-- The components that `sameProgramView` compares, one by one. -/
theorem sameProgramView_iff (s t : State) : sameProgramView s t ↔
    s.pc = t.pc ∧ s.a = t.a ∧ s.b = t.b ∧ s.sp = t.sp ∧ s.z = t.z ∧ s.c = t.c ∧ s.mem = t.mem ∧ s.halted = t.halted := by
  simp [sameProgramView, State.view, and_assoc]

/-- What the program sees after an instruction depends only on what it saw before. -/
theorem effect_sameProgramView (i : Instr) {s t : State} (h : sameProgramView s t) : sameProgramView (effect i s) (effect i t) := by
  rw [sameProgramView_iff] at h ⊢
  obtain ⟨hpc, ha, hb, hsp, hz, hc, hmem, hhalted⟩ := h
  cases i <;> simp [effect, State.load, State.popByte, State.popAddr, hpc, ha, hb, hsp, hz, hc, hmem, hhalted]

theorem afterFetch_sameProgramView (i : Instr) {s t : State} (h : sameProgramView s t) :
    sameProgramView (afterFetch i s) (afterFetch i t) := by
  obtain ⟨hpc, hview, hmem, hhalted⟩ := h
  exact ⟨congrArg (· + BitVec.ofNat 8 i.size) hpc, hview, hmem, hhalted⟩

/-- The bytes fetched are among what the program sees. -/
theorem fetchInstr_sameProgramView (m : OpcodeMap) {s t : State} (h : sameProgramView s t) : fetchInstr m s = fetchInstr m t := by
  obtain ⟨hpc, -, hmem, -⟩ := h
  unfold fetchInstr State.load
  rw [hpc, hmem]

/-- A step that runs an instruction leaves to the program's view what its body leaves; the trace entry is not in view. -/
theorem afterInstr_sameProgramView (cfg : Config) (i : Instr) {s t : State} (h : sameProgramView s t) :
    sameProgramView (afterInstr cfg i s) (afterInstr cfg i t) :=
  effect_sameProgramView i (afterFetch_sameProgramView i h)

theorem haltedOnData_sameProgramView (cfg : Config) {s t : State} (h : sameProgramView s t) :
    sameProgramView (haltedOnData cfg s) (haltedOnData cfg t) := by
  obtain ⟨hpc, hview, hmem, -⟩ := h
  exact ⟨congrArg (· + wrapAddr 1) hpc, hview, hmem, rfl⟩

/-- What the program sees after a step depends only on what it saw before. -/
theorem nextState_sameProgramView (cfg : Config) {s t : State} (h : sameProgramView s t) :
    sameProgramView (nextState cfg s) (nextState cfg t) := by
  have hf : fetchInstr cfg.opcodeMap s = fetchInstr cfg.opcodeMap t := fetchInstr_sameProgramView _ h
  have ⟨_, _, _, hh⟩ := h
  cases hs : s.halted with
  | true => rwa [nextState_halted hs, nextState_halted (hh ▸ hs)]
  | false =>
    cases hi : fetchInstr cfg.opcodeMap s with
    | none =>
      rw [nextState_data hs hi, nextState_data (hh ▸ hs) (hf ▸ hi)]
      exact haltedOnData_sameProgramView cfg h
    | some i =>
      rw [nextState_instr hs hi, nextState_instr (hh ▸ hs) (hf ▸ hi)]
      exact afterInstr_sameProgramView cfg i h

/-- Settles O34, by induction on the number of steps, from `nextState_sameProgramView`. -/
theorem programsCannotObserveDebugState : Obligations.ProgramsCannotObserveDebugState := by
  intro cfg n
  induction n with
  | zero =>
    intro s t s' h hs
    cases hs
    exact ⟨t, rfl, h⟩
  | succ n ih =>
    intro s t s' h hs
    rw [engineRun_succ] at hs ⊢
    exact ih _ _ _ (nextState_sameProgramView cfg h) hs

/-- Of the instructions only `STA_MEM` touches the debugger's record of stores: it sets `lastWrite` to its address and compares it (decision D10). -/
theorem effect_latches (i : Instr) (s : State) :
    (∃ k, i = .staMem k ∧ (effect i s).lastWrite = some k ∧ (effect i s).watchHit = (s.watchHit || s.wp == some k)) ∨
      ((effect i s).lastWrite = s.lastWrite ∧ (effect i s).watchHit = s.watchHit) := by
  cases i with
  | staMem k => exact .inl ⟨k, rfl, rfl, rfl⟩
  | _ => exact .inr ⟨rfl, rfl⟩

/-- A step leaves the debugger's record of stores, or it fetched a `STA_MEM`, which wrote it (decision D10). -/
theorem nextState_latches (cfg : Config) (s : State) :
    (∃ k, fetchInstr cfg.opcodeMap s = some (.staMem k) ∧ s.halted = false ∧ (nextState cfg s).lastWrite = some k ∧
      (nextState cfg s).watchHit = (s.watchHit || s.wp == some k)) ∨
      ((nextState cfg s).lastWrite = s.lastWrite ∧ (nextState cfg s).watchHit = s.watchHit) := by
  obtain ⟨-, ht⟩ | ⟨-, -, ht⟩ | ⟨i, hs, hf, ht⟩ := engineStep_cases (engineStep_eq cfg s)
  · exact .inr (by rw [ht]; exact ⟨rfl, rfl⟩)
  · exact .inr (by rw [ht]; exact ⟨rfl, rfl⟩)
  · rw [ht]
    obtain ⟨k, rfl, hlw, hwh⟩ | hsame := effect_latches i (afterFetch i s)
    · exact .inl ⟨k, hf, hs, hlw, hwh⟩
    · exact .inr hsame

/-- No step writes `WP` (10_state.md R32). -/
@[simp] theorem nextState_wp (cfg : Config) (s : State) : (nextState cfg s).wp = s.wp := by
  obtain ⟨-, ht⟩ | ⟨-, -, ht⟩ | ⟨i, -, -, ht⟩ := engineStep_cases (engineStep_eq cfg s)
  · rw [ht]
  · rw [ht]; rfl
  · rw [ht, afterInstr, recordStep_wp, effect_wp, afterFetch_wp]

/-- No step lowers the watch-hit: the latch is sticky (decision D9). -/
theorem nextState_watchHit_stays (cfg : Config) {s : State} (h : s.watchHit = true) : (nextState cfg s).watchHit = true := by
  obtain ⟨k, -, -, -, hwh⟩ | ⟨-, hwh⟩ := nextState_latches cfg s
  · rw [hwh, h, Bool.true_or]
  · rw [hwh, h]

/-- Settles O37, by what a step does to the latches. -/
theorem onlyStaMemTouchesTheDebugLatches : Obligations.OnlyStaMemTouchesTheDebugLatches := by
  intro cfg s t hst
  obtain rfl := (engineStep_next_iff cfg s t).1 hst
  refine ⟨nextState_wp cfg s, nextState_watchHit_stays cfg, fun hne => ?_, fun hne => ?_⟩
  · obtain ⟨k, hf, hs, hlw, -⟩ | ⟨hlw, hwh⟩ := nextState_latches cfg s
    · exact ⟨k, hf, hs, hlw⟩
    · exact absurd hwh (hne.resolve_left (not_not_intro hlw))
  · obtain ⟨k, -, -, hlw, hwh⟩ | ⟨-, hwh⟩ := nextState_latches cfg s
    · cases hwp : s.wp == some k with
      | true => rw [hlw]; exact eq_of_beq hwp
      | false => rw [hwh, hwp, Bool.or_false] at hne; exact absurd rfl hne
    · exact absurd hwh hne

/-- A step of a running core halts it exactly on `HALT` and on an unrecognized opcode (10_state.md R29). -/
theorem nextState_halted_iff (cfg : Config) {s : State} (hs : s.halted = false) : (nextState cfg s).halted = true ↔
    fetchInstr cfg.opcodeMap s = some .halt ∨ fetchInstr cfg.opcodeMap s = none := by
  cases hf : fetchInstr cfg.opcodeMap s with
  | none => rw [nextState_data hs hf]; simp [haltedOnData]
  | some i => rw [nextState_instr hs hf]; simp [afterInstr, effect_halted, hs]

/-- No step leaves Halted (30_encoding.md R81). -/
theorem nextState_halted_stays (cfg : Config) {s : State} (h : s.halted = true) : (nextState cfg s).halted = true := by
  rw [nextState_halted h, h]

end Sys2Proof.Machine
end

section
/-! PROOF. The invariant of the core (10_state.md R33, 60_exceptions.md R210 to R212): it holds after every load, and steps, restores and host edits
keep it. -/

namespace Sys2Proof.Machine

/-- After a load the trace is empty and the memory a copied image (70_reset_and_hazards.md R250). -/
theorem loadImage_inv (cfg : Config) (image : List Byte) (start : Nat) (s : State) : (loadImage image start s).Inv cfg where
  memory := loadImage_mem_wf image start s
  bounded := Nat.zero_le _
  entries := rfl
  chained := rfl
  newest := rfl
  cause := rfl

/-- Settles O41: the reset state is that of a load of the empty image. -/
theorem invHoldsAfterReset : Obligations.InvHoldsAfterReset :=
  ⟨fun cfg => loadImage_inv cfg [] 0 State.reset, loadImage_inv⟩

/-- The entry of a step from a running core follows the newest entry, which is of the step that led to that core. -/
theorem entryFollows_execEntry {s : State} (hn : lastEntryOk s = true) (hs : s.halted = false) {x : TraceEntry}
    (hx : s.trace.getLast? = some x) (op : Byte) (ins : Option Mnemonic) (k : Option Byte) (t : State) :
    entryFollows x (.exec (execEntry s op ins k t)) = true := by
  cases x with
  | rollback => rfl
  | exec d =>
    simp only [lastEntryOk, hx, Bool.and_eq_true, beq_iff_eq, hs] at hn
    obtain ⟨⟨hpc, hview⟩, hhalt⟩ := hn
    simp [entryFollows, execEntry, hpc, hview, hhalt]

/-- The recording of a step keeps the invariant, where the entry is sound and the step left the trace to the recording. -/
theorem recordStep_inv {cfg : Config} {s t : State} {op : Byte} {ins : Option Mnemonic} {k : Option Byte} (hi : s.Inv cfg)
    (hs : s.halted = false) (hmem : t.mem.wf = true) (htrace : t.trace = s.trace)
    (hentry : entryOk cfg.opcodeMap (.exec (execEntry s op ins k t)) = true) (hcause : causeOk cfg.opcodeMap t = true) :
    (recordStep cfg.traceCap s op ins k t).Inv cfg where
  memory := hmem
  bounded := by
    rw [recordStep_trace, trimTrace_length]
    exact Nat.min_le_left _ _
  entries := by
    rw [recordStep_trace, htrace]
    exact trimTrace_all _ _ hi.entries hentry
  chained := by
    rw [recordStep_trace, htrace]
    exact traceChained_trim _ hi.chained fun x hx => entryFollows_execEntry hi.newest hs hx op ins k t
  newest := by
    unfold lastEntryOk
    rw [recordStep_trace, trimTrace_append_getLast?]
    split_ifs <;> simp [execEntry]
  cause := hcause

/-- The entry of a step on an unrecognized opcode: a raw byte, with the halt marker (60_exceptions.md R211). -/
theorem entryOk_of_data {m : OpcodeMap} {s t : State} (hf : fetchInstr m s = none) (ht : t.halted = true) :
    entryOk m (.exec (execEntry s (s.load s.pc) none none t)) = true := by
  simp [entryOk, execEntry, ExecEntry.listing, Listing.wf, Listing.insOk, Listing.sizeOk, Listing.operandOk,
    fetchInstr_eq_none.1 hf, ht]

/-- The record that an entry of an executed instruction shows is the instruction's. -/
theorem execEntry_listing {m : OpcodeMap} {s : State} {i : Instr} (hf : fetchInstr m s = some i) (t : State) :
    (execEntry s (s.load s.pc) (some i.mnemonic) i.operand t).listing = i.listing m := by
  obtain ⟨-, hop, -⟩ := decodeOp_eq_some hf
  simp [execEntry, ExecEntry.listing, Instr.listing, Instr.size, hop]

/-- The record of a fetched instruction is well formed, under any map. -/
theorem listing_wf_of_fetchInstr {m : OpcodeMap} {s : State} {i : Instr} (hf : fetchInstr m s = some i) :
    (i.listing m).wf m = true := by
  obtain ⟨hmn, hop, -⟩ := decodeOp_eq_some hf
  have hsize : i.operand.isSome = (i.size == 2) := eq_of_beq i.wf_all
  simp only [Listing.wf, Bool.and_eq_true]
  refine ⟨⟨?_, ?_⟩, ?_⟩
  · simp [Listing.insOk, Instr.listing, hop, hmn]
  · simp [Listing.sizeOk, Instr.listing, Instr.size]
  · simp [Listing.operandOk, Instr.listing, hsize]

/-- `HALT` is the only instruction of its mnemonic. -/
theorem mnemonic_eq_halt_iff (i : Instr) : i.mnemonic = .HALT ↔ i = .halt := by
  cases i <;> simp [Instr.mnemonic]

/-- The entry of an executed instruction has the halt marker exactly when it is of `HALT` (60_exceptions.md R211). -/
theorem entryOk_of_instr {m : OpcodeMap} {s t : State} {i : Instr} (hf : fetchInstr m s = some i) (ht : t.halted = (i == .halt)) :
    entryOk m (.exec (execEntry s (s.load s.pc) (some i.mnemonic) i.operand t)) = true := by
  have hmark : (i == .halt) = (some i.mnemonic == some .HALT) := by
    rw [Bool.eq_iff_iff]
    simp [mnemonic_eq_halt_iff]
  simp only [entryOk, execEntry_listing hf, listing_wf_of_fetchInstr hf, Bool.true_and, beq_iff_eq]
  simp [execEntry, ht, hmark]

/-- A body sets the ghost cause exactly when it halts (10_state.md R33). -/
theorem effect_causeOk (m : OpcodeMap) (i : Instr) {s : State} (h : causeOk m s = true) : causeOk m (effect i s) = true := by
  cases i with
  | halt => rfl
  | _ => exact h

/-- Every step keeps the core's invariant. -/
theorem nextState_inv {cfg : Config} {s : State} (hi : s.Inv cfg) : (nextState cfg s).Inv cfg := by
  obtain ⟨-, ht⟩ | ⟨hs, hf, ht⟩ | ⟨i, hs, hf, ht⟩ := engineStep_cases (engineStep_eq cfg s)
  · rwa [ht]
  · rw [ht]
    have hop : mnemonicOf cfg.opcodeMap (s.load s.pc) = none := fetchInstr_eq_none.1 hf
    exact recordStep_inv hi hs hi.memory rfl (entryOk_of_data hf rfl) (by simp [causeOk, hop])
  · rw [ht]
    have hhalt : (effect i (afterFetch i s)).halted = (i == .halt) := by rw [effect_halted, afterFetch_halted, hs, Bool.false_or]
    exact recordStep_inv hi hs (effect_mem_wf i hi.memory) (effect_trace ..) (entryOk_of_instr hf hhalt) (effect_causeOk _ i hi.cause)

/-- A snapshot of a core with the invariant has what the invariant says of snapshots. -/
theorem capture_inv {cfg : Config} {s : State} (hi : s.Inv cfg) : (capture s).Inv cfg := ⟨hi.memory, hi.entries, hi.chained⟩

/-- A rollback entry constrains nothing before it. -/
theorem entryFollows_rollback (x : TraceEntry) : entryFollows x .rollback = true := by cases x <;> rfl

@[simp] theorem restore_trace (cap : Nat) (p : Snapshot) (s : State) :
    (restore cap p s).trace = trimTrace cap (p.trace ++ [.rollback]) := rfl
@[simp] theorem restore_halted (cap : Nat) (p : Snapshot) (s : State) : (restore cap p s).halted = p.halted := rfl
@[simp] theorem restore_wp (cap : Nat) (p : Snapshot) (s : State) : (restore cap p s).wp = s.wp := rfl
@[simp] theorem restore_watchHit (cap : Nat) (p : Snapshot) (s : State) : (restore cap p s).watchHit = s.watchHit := rfl

/-- The cause that a restore sets fits the restored `halted` (10_state.md R33). -/
theorem restore_causeOk (m : OpcodeMap) (cap : Nat) (p : Snapshot) (s : State) : causeOk m (restore cap p s) = true := by
  have hc : (restore cap p s).haltCause = restoredCause p.halted := rfl
  unfold causeOk
  rw [hc, restore_halted]
  cases p.halted <;> rfl

/-- A restore of a snapshot of the history meets the core's invariant, whatever the core before it. -/
theorem restore_inv {cfg : Config} {p : Snapshot} (hp : p.Inv cfg) (s : State) : (restore cfg.traceCap p s).Inv cfg where
  memory := hp.memory
  bounded := by
    rw [restore_trace, trimTrace_length]
    exact Nat.min_le_left _ _
  entries := by
    rw [restore_trace]
    exact trimTrace_all _ _ hp.entries rfl
  chained := by
    rw [restore_trace]
    exact traceChained_trim _ hp.chained fun x _ => entryFollows_rollback x
  newest := by
    unfold lastEntryOk
    rw [restore_trace, trimTrace_append_getLast?]
    split_ifs <;> rfl
  cause := restore_causeOk _ _ _ _

/-- The invariant speaks of no component of the debugger. -/
theorem State.Inv.setWatchHit {cfg : Config} {s : State} (hi : s.Inv cfg) (w : Bool) : (s.setWatchHit w).Inv cfg :=
  ⟨hi.memory, hi.bounded, hi.entries, hi.chained, hi.newest, hi.cause⟩

theorem State.Inv.setWp {cfg : Config} {s : State} (hi : s.Inv cfg) (w : Option Byte) : (s.setWp w).Inv cfg :=
  ⟨hi.memory, hi.bounded, hi.entries, hi.chained, hi.newest, hi.cause⟩

/-- A plain write of one cell keeps memory canonical and the rest of the invariant as it was. -/
theorem State.Inv.store {cfg : Config} {s : State} (hi : s.Inv cfg) (x v : Byte) : (s.store x v).Inv cfg :=
  ⟨Memory.write_wf hi.memory x v, hi.bounded, hi.entries, hi.chained, hi.newest, hi.cause⟩

end Sys2Proof.Machine
end

section
/-! PROOF. What each host command can do to the session, said once (60_exceptions.md R220 to R236), and what the commands keep: `WP` and the watch-hit
(10_state.md R32, R34), `halted` (R29), and the session's invariant (R43). -/

namespace Sys2Proof.Machine

/-- What a command that answers a session has done: the session it leaves, by kind of command. -/
inductive CommandEffect (cfg : Config) (q : Session) : Command → Session → Prop where
  /-- Nothing to the core or its history. -/
  | hostOnly (cmd : Command) {r : Session} (hcore : r.core = q.core) (hloaded : r.loaded = q.loaded) (hhistory : r.history = q.history) :
      CommandEffect cfg q cmd r
  | load (image : List Byte) (start : Option Nat) : CommandEffect cfg q (.load image start) (q.load image (startAddress start))
  | reset (image : List Byte) : CommandEffect cfg q .reset (q.load image q.start)
  | edit (addr : Nat) (text : List Char) (x v : Byte) :
      CommandEffect cfg q (.setMemoryByte addr text) { q with core := q.core.store x v }
  | watchpoint (text : Option (List Char)) (w : Option Byte) :
      CommandEffect cfg q (.setWatchpoint text) { q with core := q.core.setWp w }
  | clear : CommandEffect cfg q .clearWatchHit q.clearWatchHit
  | restore {p : Snapshot} {rest : List Snapshot} (hhistory : q.history = p :: rest) :
      CommandEffect cfg q .stepBack { q with core := restore cfg.traceCap p q.core, history := rest }
  | step {t : Session} (hstep : q.step cfg = .next t) : CommandEffect cfg q .step t
  | stepOnce {t : Session} (hstep : q.step cfg = .next t) : CommandEffect cfg q .stepOnce t.reportWatch
  | batch {cmd : Command} {t : Session} {stop : Option BatchStop} (hcmd : cmd ∈ [.runBatch, .tick])
      (hsteps : batchSteps cfg cfg.batchSteps q = .next (t, stop)) : CommandEffect cfg q cmd (t.afterBatch cfg stop)

theorem Session.assemble_effect (cfg : Config) (q : Session) (source : List Char) :
    CommandEffect cfg q (.assemble source) (q.assemble cfg source).1 := by
  unfold Session.assemble
  split <;> exact .hostOnly _ rfl rfl rfl

theorem Session.stepBack_effect (cfg : Config) (q : Session) : CommandEffect cfg q .stepBack (q.stepBack cfg).1 := by
  unfold Session.stepBack
  split
  · exact .hostOnly _ rfl rfl rfl
  · next p rest hh => exact .restore hh

theorem Session.setMemoryByte_effect (cfg : Config) (q : Session) (addr : Nat) (text : List Char) :
    CommandEffect cfg q (.setMemoryByte addr text) (q.setMemoryByte addr text).1 := by
  unfold Session.setMemoryByte
  split
  · split
    · exact .edit addr text _ _
    · exact .hostOnly _ rfl rfl rfl
  · exact .hostOnly _ rfl rfl rfl

theorem Session.setWatchpoint_effect (cfg : Config) (q : Session) (text : Option (List Char)) :
    CommandEffect cfg q (.setWatchpoint text) (q.setWatchpoint text).1 := by
  unfold Session.setWatchpoint
  split
  · exact .watchpoint text _
  · exact .hostOnly _ rfl rfl rfl

theorem Session.setBreakpoint_effect (cfg : Config) (q : Session) (text : Option (List Char)) :
    CommandEffect cfg q (.setBreakpoint text) (q.setBreakpoint text).1 := by
  unfold Session.setBreakpoint
  split <;> exact .hostOnly _ rfl rfl rfl

theorem Session.runBatch_effect {cfg : Config} {q r : Session} {rep : Report} {cmd : Command} (hcmd : cmd ∈ [.runBatch, .tick])
    (h : q.runBatch cfg = .next (r, rep)) : CommandEffect cfg q cmd r := by
  unfold Session.runBatch at h
  split at h
  · split at h
    · next t stop hsteps => cases h; exact .batch hcmd hsteps
    · cases h
    · cases h
  · cases h

theorem Session.stepOnce_effect {cfg : Config} {q r : Session} {rep : Report} (h : q.stepOnce cfg = .next (r, rep)) :
    CommandEffect cfg q .stepOnce r := by
  unfold Session.stepOnce at h
  split at h
  · next t hstep => cases h; exact .stepOnce hstep
  · cases h
  · cases h

theorem Session.reset_effect {cfg : Config} {q r : Session} {rep : Report} (h : q.reset = .next (r, rep)) :
    CommandEffect cfg q .reset r := by
  unfold Session.reset at h
  split at h
  · next image _ => cases h; exact .reset image
  · cases h

/-- What a host command can do. -/
theorem hostCommand_effect {cfg : Config} {cmd : Command} {q r : Session} {rep : Report}
    (h : hostCommand cfg cmd q = .next (r, rep)) : CommandEffect cfg q cmd r := by
  have of_pair {x : Session × Report} (hx : Host.Outcome.next x = (.next (r, rep) : SessionOutcome))
      (he : CommandEffect cfg q cmd x.1) : CommandEffect cfg q cmd r := by cases hx; exact he
  cases cmd with
  | load image start => exact of_pair h (.load image start)
  | assemble source => exact of_pair h (q.assemble_effect cfg source)
  | step =>
    unfold hostCommand at h
    dsimp only at h
    split at h
    · next t hstep => cases h; exact .step hstep
    · cases h
    · cases h
  | stepBack => exact of_pair h (q.stepBack_effect cfg)
  | setMemoryByte addr text => exact of_pair h (q.setMemoryByte_effect cfg addr text)
  | setWatchpoint text => exact of_pair h (q.setWatchpoint_effect cfg text)
  | clearWatchHit => exact of_pair h .clear
  | setBreakpoint text => exact of_pair h (q.setBreakpoint_effect cfg text)
  | canStepBack | startRun | stop => exact of_pair h (.hostOnly _ rfl rfl rfl)
  | runBatch => exact Session.runBatch_effect (by simp) h
  | tick =>
    unfold hostCommand at h
    dsimp only at h
    split at h
    · exact Session.runBatch_effect (by simp) h
    · exact of_pair h (.hostOnly _ rfl rfl rfl)
  | stepOnce => exact Session.stepOnce_effect h
  | reset => exact Session.reset_effect h
  | inspect | disassemble addr count =>
    unfold hostCommand at h
    dsimp only at h
    split at h
    · exact of_pair h (.hostOnly _ rfl rfl rfl)
    · cases h

/-- A report of a hit leaves the latch low, and the rest of the core as it was. -/
theorem reportWatch_core_eq (q : Session) : q.reportWatch.core = q.core.setWatchHit false := by
  rw [reportWatch_core]
  split
  · rfl
  · next hw => rw [Bool.not_eq_true] at hw; rw [← hw]; rfl

/-- The first step of a batch, and what follows it (60_exceptions.md R228). -/
theorem batchSteps_succ_cases {cfg : Config} {n : Nat} {q r : Session} {stop : Option BatchStop}
    (h : batchSteps cfg (n + 1) q = .next (r, stop)) :
    r = { q with events := q.events ++ [.breakAt q.core.pc] } ∨
      ∃ t, q.step cfg = .next t ∧ (r = t.reportWatch ∨ r = t ∨ batchSteps cfg n t = .next (r, stop)) := by
  unfold batchSteps at h
  split at h
  · cases h; exact .inl rfl
  · split at h
    · next t hstep =>
      refine .inr ⟨t, hstep, ?_⟩
      split at h
      · cases h; exact .inl rfl
      · split at h
        · cases h; exact .inr (.inl rfl)
        · exact .inr (.inr h)
    · cases h
    · cases h

/-- A session's step is one step of the engine. -/
theorem Session.step_core {cfg : Config} {q r : Session} (h : q.step cfg = .next r) : r.core = nextState cfg q.core := by
  obtain ⟨-, rfl⟩ := Session.step_cases h
  rfl

theorem engineRun_one (cfg : Config) (s : State) : engineRun cfg 1 s = .next (nextState cfg s) := by
  rw [engineRun_succ, engineRun_zero]

/-- A batch is a run of the engine, with the latch cleared where a hit was reported. -/
theorem batchSteps_engineRun {cfg : Config} {n : Nat} {q r : Session} {stop : Option BatchStop}
    (h : batchSteps cfg n q = .next (r, stop)) :
    ∃ k t, engineRun cfg k q.core = .next t ∧ r.core = t.setWatchHit r.core.watchHit := by
  induction n generalizing q with
  | zero => cases h; exact ⟨0, _, rfl, rfl⟩
  | succ n ih =>
    obtain rfl | ⟨t, hstep, rfl | rfl | hrest⟩ := batchSteps_succ_cases h
    · exact ⟨0, _, rfl, rfl⟩
    · refine ⟨1, _, engineRun_one cfg _, ?_⟩
      rw [reportWatch_core_eq, Session.step_core hstep]
      rfl
    · refine ⟨1, _, engineRun_one cfg _, ?_⟩
      rw [Session.step_core hstep]
      rfl
    · obtain ⟨k, u, hrun, hu⟩ := ih hrest
      rw [Session.step_core hstep, ← engineRun_succ] at hrun
      exact ⟨k + 1, u, hrun, hu⟩

/-- The commands that step the core leave it halted exactly as a run of the engine does. -/
theorem CommandEffect.halted_of_steps {cfg : Config} {cmd : Command} {q r : Session} (h : CommandEffect cfg q cmd r)
    (hcmd : cmd ∈ [.step, .stepOnce, .runBatch, .tick]) :
    ∃ n t, engineRun cfg n q.core = .next t ∧ r.core.halted = t.halted := by
  cases h with
  | hostOnly _ hcore => exact ⟨0, _, rfl, by rw [hcore]⟩
  | step hstep => exact ⟨1, _, engineRun_one cfg _, by rw [Session.step_core hstep]⟩
  | stepOnce hstep => exact ⟨1, _, engineRun_one cfg _, by rw [reportWatch_core_eq, Session.step_core hstep]; rfl⟩
  | batch _ hsteps =>
    obtain ⟨n, t, hrun, ht⟩ := batchSteps_engineRun hsteps
    exact ⟨n, t, hrun, by rw [afterBatch_core, ht]; rfl⟩
  | load | reset | edit | watchpoint | clear | restore => simp at hcmd

/-- A command that moves `halted` is a load, a restore of a snapshot that holds the new value, or one that steps the core (10_state.md R29). -/
theorem CommandEffect.halted_cases {cfg : Config} {cmd : Command} {q r : Session} (h : CommandEffect cfg q cmd r) :
    r.core.halted = q.core.halted ∨
      (r.core.halted = false ∧ ((∃ image start, cmd = .load image start) ∨ cmd = .reset)) ∨
      (cmd = .stepBack ∧ ∃ p rest, q.history = p :: rest ∧ p.halted = r.core.halted) ∨
      cmd ∈ [.step, .stepOnce, .runBatch, .tick] := by
  cases h with
  | hostOnly _ hcore => exact .inl (by rw [hcore])
  | edit | watchpoint | clear => exact .inl rfl
  | load image start => exact .inr (.inl ⟨rfl, .inl ⟨image, start, rfl⟩⟩)
  | reset => exact .inr (.inl ⟨rfl, .inr rfl⟩)
  | restore hhistory => exact .inr (.inr (.inl ⟨rfl, _, _, hhistory, rfl⟩))
  | step | stepOnce => exact .inr (.inr (.inr (by simp)))
  | batch hcmd => exact .inr (.inr (.inr (List.mem_cons_of_mem _ (List.mem_cons_of_mem _ hcmd))))

/-- Beside a running core, the newest snapshot of a session with the invariant is not halted. -/
theorem Session.Inv.newest_running {cfg : Config} {q : Session} (hi : q.Inv cfg) (hq : q.core.halted = false) {p : Snapshot}
    {rest : List Snapshot} (hh : q.history = p :: rest) : p.halted = false := by
  have hstays := hi.haltStays
  rw [hh, List.map_cons, List.pairwise_cons] at hstays
  obtain ⟨hcore, -⟩ := hstays
  have hp := hcore p.halted (List.mem_cons_self ..)
  rw [hq] at hp
  simpa using hp

/-- Settles O39: of a step by the instruction it fetched, of a command by its effect on `halted`. -/
theorem haltedIsSetAndClearedAsStated : Obligations.HaltedIsSetAndClearedAsStated := by
  refine ⟨fun cfg s t hst hs => ?_, fun cfg cmd q r rep h hq hr => ?_, fun cfg cmd q r rep h hq hr => ?_, fun _ => rfl, rfl⟩
  · rw [(engineStep_next_iff cfg s t).1 hst]
    exact nextState_halted_iff cfg hs
  · have he := hostCommand_effect h
    obtain hsame | ⟨-, hload | hreset⟩ | ⟨hback, p, rest, hh, hp⟩ | hsteps := he.halted_cases
    · rw [hq, hr] at hsame; cases hsame
    · exact .inl hload
    · exact .inr (.inl hreset)
    · exact .inr (.inr ⟨hback, p, rest, hh, hp.trans hr⟩)
    · obtain ⟨n, t, hrun, ht⟩ := he.halted_of_steps hsteps
      have hstays : t.halted = true := engineRun_induct (P := fun s => s.halted = true) (fun _ => nextState_halted_stays cfg) hq hrun
      rw [hr, hstays] at ht; cases ht
  · have he := hostCommand_effect h
    obtain hsame | ⟨hload, -⟩ | ⟨hback, p, rest, hh, hp⟩ | hsteps := he.halted_cases
    · rw [hq, hr] at hsame; cases hsame
    · rw [hr] at hload; cases hload
    · refine ⟨.inr ⟨hback, p, rest, hh, hp.trans hr⟩, fun hi _ => ?_⟩
      rw [hr, hi.newest_running hq hh] at hp
      cases hp
    · obtain ⟨n, t, hrun, ht⟩ := he.halted_of_steps hsteps
      refine ⟨.inl ⟨hsteps, n, t, hrun, ht.symm.trans hr⟩, fun _ hback => ?_⟩
      rw [hback] at hsteps
      simp at hsteps

/-- Of the commands only `setWatchpoint` changes `WP` (60_exceptions.md R226). -/
theorem CommandEffect.wp_eq {cfg : Config} {cmd : Command} {q r : Session} (h : CommandEffect cfg q cmd r) :
    r.core.wp = q.core.wp ∨ ∃ text, cmd = .setWatchpoint text := by
  cases h with
  | hostOnly _ hcore => exact .inl (by rw [hcore])
  | load | reset | edit | clear | restore => exact .inl rfl
  | watchpoint text => exact .inr ⟨text, rfl⟩
  | step hstep => exact .inl (by rw [Session.step_core hstep, nextState_wp])
  | stepOnce hstep => exact .inl (by rw [reportWatch_core_eq, State.setWatchHit_wp, Session.step_core hstep, nextState_wp])
  | batch _ hsteps =>
    refine .inl ?_
    rw [afterBatch_core]
    exact batchSteps_induct (P := fun s => s.wp = q.core.wp) (fun s hs => (nextState_wp cfg s).trans hs) (fun _ hs => hs) rfl hsteps

/-- Only a load and the controller's clear, alone or in its report of a hit, lower the watch-hit (decisions D8, D9). -/
theorem CommandEffect.watchHit_stays {cfg : Config} {cmd : Command} {q r : Session} (h : CommandEffect cfg q cmd r)
    (hq : q.core.watchHit = true) : r.core.watchHit = true ∨
      (∃ image start, cmd = .load image start) ∨ cmd ∈ [.reset, .clearWatchHit, .stepOnce, .runBatch, .tick] := by
  cases h with
  | hostOnly _ hcore => exact .inl (by rw [hcore, hq])
  | edit | watchpoint | restore => exact .inl hq
  | step hstep => exact .inl (by rw [Session.step_core hstep]; exact nextState_watchHit_stays cfg hq)
  | load image start => exact .inr (.inl ⟨image, start, rfl⟩)
  | reset | clear | stepOnce => exact .inr (.inr (by simp))
  | batch hcmd =>
    exact .inr (.inr (List.mem_cons_of_mem _ (List.mem_cons_of_mem _ (List.mem_cons_of_mem _ hcmd))))

/-- Settles O52, by the effect of each command on `WP` and on the latch. -/
theorem onlyTheControllerMovesTheWatchpoint : Obligations.OnlyTheControllerMovesTheWatchpoint := by
  intro cfg cmd q r rep h
  have he := hostCommand_effect h
  refine ⟨fun hne => he.wp_eq.resolve_left hne, fun hq hr => (he.watchHit_stays hq).resolve_left ?_⟩
  rw [hr]
  exact Bool.false_ne_true

/-- A session that is not loaded steps nothing (10_state.md R41, decision D7). -/
theorem Session.step_refused (cfg : Config) {q : Session} (hl : q.loaded = false) : q.step cfg = .refused .beforeFirstLoad := by
  simp [Session.step, hl]

theorem Session.stepOnce_refused (cfg : Config) {q : Session} (hl : q.loaded = false) :
    q.stepOnce cfg = .refused .beforeFirstLoad := by
  rw [Session.stepOnce, Session.step_refused cfg hl]

theorem Session.runBatch_refused (cfg : Config) {q : Session} (hl : q.loaded = false) :
    q.runBatch cfg = .refused .beforeFirstLoad := by
  simp [Session.runBatch, hl]

/-- Settles O53: each command that steps or reads asks first whether the session is loaded. -/
theorem noStepBeforeTheFirstLoad : Obligations.NoStepBeforeTheFirstLoad := by
  intro cfg q hl
  refine ⟨fun cmd hcmd => ?_, fun addr count => ?_, fun hcadence => ?_, fun image start => ⟨_, hostCommand_load cfg image start q, rfl⟩⟩
  · simp only [List.mem_cons, List.not_mem_nil, or_false] at hcmd
    obtain rfl | rfl | rfl | rfl := hcmd
    · simp [hostCommand, Session.step_refused cfg hl]
    · exact Session.stepOnce_refused cfg hl
    · exact Session.runBatch_refused cfg hl
    · simp [hostCommand, hl]
  · simp [hostCommand, hl]
  · simp [hostCommand, hcadence, Session.runBatch_refused cfg hl]

end Sys2Proof.Machine
end

section
/-! PROOF. The session's invariant (10_state.md R43, 60_exceptions.md R220, R223): it holds at construction, and every host command keeps it, by the kind of
thing a command can do (`CommandEffect`). -/

namespace Sys2Proof.Machine

/-- At construction the core is not loaded and the history is empty. -/
theorem constructed_inv (cfg : Config) : Session.constructed.Inv cfg where
  core := fun hl => absurd hl Bool.false_ne_true
  snapshots := fun _ hp => absurd hp List.not_mem_nil
  bounded := Nat.zero_le _
  haltStays := List.pairwise_singleton _ _

/-- A change that leaves the history, keeps the core's invariant and does not take the core out of Halted keeps the session's invariant. -/
theorem Session.Inv.of_sameHistory {cfg : Config} {q r : Session} (hi : q.Inv cfg) (hloaded : r.loaded = q.loaded)
    (hhistory : r.history = q.history) (hhalted : q.core.halted = true → r.core.halted = true)
    (hcore : q.core.Inv cfg → r.core.Inv cfg) : r.Inv cfg where
  core := fun hl => hcore (hi.core (hloaded ▸ hl))
  snapshots := hhistory ▸ hi.snapshots
  bounded := hhistory ▸ hi.bounded
  haltStays := by
    have hstays := hi.haltStays
    rw [List.pairwise_cons] at hstays ⊢
    obtain ⟨hnewest, hrest⟩ := hstays
    rw [hhistory]
    exact ⟨fun older hmem ho => hhalted (hnewest older hmem ho), hrest⟩

/-- A load empties the history and leaves a core with its invariant. -/
theorem Session.load_inv (cfg : Config) (q : Session) (image : List Byte) (start : Nat) : (q.load image start).Inv cfg where
  core := fun _ => loadImage_inv cfg image start q.core
  snapshots := fun _ hp => absurd hp List.not_mem_nil
  bounded := Nat.zero_le _
  haltStays := List.pairwise_singleton _ _

/-- What a push leaves of the history, whether or not the host makes it (U8). -/
theorem pushSnapshot_history_cases (cfg : Config) (q : Session) : (q.pushSnapshot cfg).history = q.history ∨
    (q.pushSnapshot cfg).history = (capture q.core :: q.history).take cfg.historyCap := by
  unfold Session.pushSnapshot
  split
  · exact .inl rfl
  · exact .inr rfl

/-- A push keeps the invariant: its snapshot is of the core itself, so it is halted exactly where the core is. -/
theorem Session.Inv.pushSnapshot {cfg : Config} {q : Session} (hi : q.Inv cfg) (hl : q.loaded = true) : (q.pushSnapshot cfg).Inv cfg := by
  obtain hkept | hpushed := pushSnapshot_history_cases cfg q
  · exact hi.of_sameHistory (pushSnapshot_loaded cfg q) hkept (by rw [pushSnapshot_core]; exact id) (by rw [pushSnapshot_core]; exact id)
  · refine ⟨fun _ => ?_, fun p hp => ?_, ?_, ?_⟩
    · rw [pushSnapshot_core]
      exact hi.core hl
    · rw [hpushed] at hp
      obtain rfl | hold := List.mem_cons.1 (List.mem_of_mem_take hp)
      · exact capture_inv (hi.core hl)
      · exact hi.snapshots p hold
    · rw [hpushed, List.length_take]
      exact Nat.min_le_left _ _
    · rw [hpushed, pushSnapshot_core, List.map_take, ← List.take_succ_cons]
      refine List.Pairwise.sublist (List.take_sublist _ _) ?_
      have hstays := hi.haltStays
      rw [List.map_cons, List.pairwise_cons]
      refine ⟨fun older hmem ho => ?_, hstays⟩
      obtain rfl | hold := List.mem_cons.1 hmem
      · exact ho
      · exact (List.pairwise_cons.1 hstays).1 older hold ho

/-- A step of the session keeps the invariant: it is a push and a step of the core. -/
theorem Session.Inv.step {cfg : Config} {q r : Session} (hi : q.Inv cfg) (h : q.step cfg = .next r) : r.Inv cfg := by
  obtain ⟨hl, rfl⟩ := Session.step_cases h
  refine (hi.pushSnapshot hl).of_sameHistory rfl rfl ?_ ?_
  · rw [pushSnapshot_core]
    exact nextState_halted_stays cfg
  · rw [pushSnapshot_core]
    exact nextState_inv

theorem Session.Inv.reportWatch {cfg : Config} {q : Session} (hi : q.Inv cfg) : q.reportWatch.Inv cfg := by
  unfold Session.reportWatch
  split
  · exact hi.of_sameHistory rfl rfl id fun hc => hc.setWatchHit false
  · exact hi

theorem Session.Inv.afterBatch {cfg : Config} {q : Session} (hi : q.Inv cfg) (stop : Option BatchStop) : (q.afterBatch cfg stop).Inv cfg := by
  unfold Session.afterBatch
  split
  · exact hi
  · exact hi.of_sameHistory rfl rfl id id

/-- A batch keeps the invariant, step by step. -/
theorem Session.Inv.batchSteps {cfg : Config} {n : Nat} {q r : Session} {stop : Option BatchStop} (hi : q.Inv cfg)
    (h : batchSteps cfg n q = .next (r, stop)) : r.Inv cfg := by
  induction n generalizing q with
  | zero => cases h; exact hi
  | succ n ih =>
    obtain rfl | ⟨t, hstep, rfl | rfl | hrest⟩ := batchSteps_succ_cases h
    · exact hi.of_sameHistory rfl rfl id id
    · exact (hi.step hstep).reportWatch
    · exact hi.step hstep
    · exact ih (hi.step hstep) hrest

/-- A step-back keeps the invariant: the snapshots older than the one restored follow it as they followed the core. -/
theorem Session.Inv.stepBack {cfg : Config} {q : Session} (hi : q.Inv cfg) {p : Snapshot} {rest : List Snapshot}
    (hh : q.history = p :: rest) : ({ q with core := restore cfg.traceCap p q.core, history := rest } : Session).Inv cfg where
  core := fun _ => restore_inv (hi.snapshots p (by simp [hh])) q.core
  snapshots := fun x hx => hi.snapshots x (by simp [hh, hx])
  bounded := by
    have hb := hi.bounded
    rw [hh, List.length_cons] at hb
    exact Nat.le_of_succ_le hb
  haltStays := by
    have hstays := hi.haltStays
    rw [hh, List.map_cons] at hstays
    exact hstays.of_cons

/-- Whatever a command can do keeps the session's invariant. -/
theorem CommandEffect.inv {cfg : Config} {cmd : Command} {q r : Session} (h : CommandEffect cfg q cmd r) (hi : q.Inv cfg) :
    r.Inv cfg := by
  cases h with
  | hostOnly _ hcore hloaded hhistory =>
    exact hi.of_sameHistory hloaded hhistory (by rw [hcore]; exact id) (by rw [hcore]; exact id)
  | load | reset => exact Session.load_inv ..
  | edit _ _ x v => exact hi.of_sameHistory rfl rfl id fun hc => hc.store x v
  | watchpoint _ w => exact hi.of_sameHistory rfl rfl id fun hc => hc.setWp w
  | clear => exact hi.of_sameHistory rfl rfl id fun hc => hc.setWatchHit false
  | restore hhistory => exact hi.stepBack hhistory
  | step hstep => exact hi.step hstep
  | stepOnce hstep => exact (hi.step hstep).reportWatch
  | batch _ hsteps => exact (hi.batchSteps hsteps).afterBatch _

/-- Settles O43: every command has one of the effects, and each effect keeps the invariant. -/
theorem everyHostCommandKeepsTheInvariant : Obligations.EveryHostCommandKeepsTheInvariant :=
  ⟨constructed_inv, fun _ _ _ _ _ hi h => (hostCommand_effect h).inv hi⟩

end Sys2Proof.Machine
end

section
/-! PROOF. Memory as 256 cells (20_memory.md R53, R57): canonical memories are determined by their reads, so a law of writes is a law of reads. -/

namespace Sys2Proof.Machine

/-- A canonical memory differs, at its first key, from one that is canonical from a later key on: it lists no 0. -/
theorem Memory.read_head_ne {lo k : Nat} {v : Byte} {m n : Memory} (hm : Memory.wfFrom lo ((k, v) :: m) = true)
    (hn : Memory.wfFrom (k + 1) n = true) : Memory.read ((k, v) :: m) (BitVec.ofNat 8 k) ≠ Memory.read n (BitVec.ofNat 8 k) := by
  obtain ⟨-, hk, hv, -⟩ := (Memory.wfFrom_entry ..).1 hm
  have hbelow : (BitVec.ofNat 8 k).toNat < k + 1 := by rw [BitVec.toNat_ofNat]; omega
  rw [Memory.read_head hm, Memory.read_below hn hbelow]
  exact hv

/-- Canonical memories that read alike from a key on, and list nothing before it, are equal. -/
theorem Memory.eq_of_wfFrom {lo : Nat} {m n : Memory} (hm : Memory.wfFrom lo m = true) (hn : Memory.wfFrom lo n = true)
    (h : ∀ x, Memory.read m x = Memory.read n x) : m = n := by
  induction m generalizing lo n with
  | nil =>
    cases n with
    | nil => rfl
    | cons e n => exact absurd (h _).symm (Memory.read_head_ne hn (Memory.wfFrom_nil _))
  | cons d m ih =>
    obtain ⟨k, v⟩ := d
    cases n with
    | nil => exact absurd (h _) (Memory.read_head_ne hm (Memory.wfFrom_nil _))
    | cons e n =>
      obtain ⟨j, w⟩ := e
      obtain ⟨-, hk, hv, hm'⟩ := (Memory.wfFrom_entry ..).1 hm
      obtain ⟨-, hj, hw, hn'⟩ := (Memory.wfFrom_entry ..).1 hn
      obtain hlt | rfl | hgt := Nat.lt_trichotomy k j
      · exact absurd (h _) (Memory.read_head_ne hm ((Memory.wfFrom_entry ..).2 ⟨hlt, hj, hw, hn'⟩))
      · have hvw : v = w := by rw [← Memory.read_head hm, h, Memory.read_head hn]
        have htail : ∀ x, Memory.read m x = Memory.read n x := by
          intro x
          by_cases hx : k = x.toNat
          · rw [Memory.read_below hm' (by omega), Memory.read_below hn' (by omega)]
          · simpa [Memory.read_entry, hx] using h x
        rw [hvw, ih hm' hn' htail]
      · exact absurd (h _).symm (Memory.read_head_ne hn ((Memory.wfFrom_entry ..).2 ⟨hgt, hk, hv, hm'⟩))

/-- Canonical memories that read alike are equal. -/
theorem Memory.eq_of_read_eq {m n : Memory} (hm : m.wf = true) (hn : n.wf = true) (h : ∀ x, m.read x = n.read x) : m = n :=
  Memory.eq_of_wfFrom hm hn h

/-- Writes at different addresses commute. -/
theorem Memory.write_comm {m : Memory} (hm : m.wf = true) {x y : Byte} (v w : Byte) (hxy : x ≠ y) :
    (m.write x v).write y w = (m.write y w).write x v := by
  have hx := Memory.write_wf hm x v
  have hy := Memory.write_wf hm y w
  refine Memory.eq_of_read_eq (Memory.write_wf hx y w) (Memory.write_wf hy x v) fun z => ?_
  rw [Memory.read_write hx, Memory.read_write hm, Memory.read_write hy, Memory.read_write hm]
  by_cases hz : x = z
  · rw [if_pos hz, if_pos hz, if_neg (hz ▸ hxy.symm)]
  · rw [if_neg hz, if_neg hz]

/-- Writing back what a cell reads as changes nothing. -/
theorem Memory.write_read {m : Memory} (hm : m.wf = true) (x : Byte) : m.write x (m.read x) = m := by
  refine Memory.eq_of_read_eq (Memory.write_wf hm _ _) hm fun z => ?_
  rw [Memory.read_write hm, ite_eq_right_iff]
  exact congrArg m.read

/-- Of two writes to one cell the later stands. -/
theorem Memory.write_write {m : Memory} (hm : m.wf = true) (x v w : Byte) : (m.write x v).write x w = m.write x w := by
  have hx := Memory.write_wf hm x v
  refine Memory.eq_of_read_eq (Memory.write_wf hx _ _) (Memory.write_wf hm _ _) fun z => ?_
  rw [Memory.read_write hx, Memory.read_write hm, Memory.read_write hm]
  split <;> rfl

/-- Settles O45: equality by the first keys, and the laws of writes from it. -/
theorem memoriesThatReadAlikeAreEqual : Obligations.MemoriesThatReadAlikeAreEqual :=
  ⟨fun _ _ => Memory.eq_of_read_eq, fun _ _ _ v w hm => Memory.write_comm hm v w,
    fun _ x v w hm => ⟨Memory.write_read hm x, Memory.write_write hm x v w⟩⟩

/-- The cell of an address that is "reduced mod 256 before use" (20_memory.md R50). -/
theorem wrapAddr_eq_iff (n : Nat) (x : Byte) : wrapAddr n = x ↔ x.toNat = n % 256 := by
  rw [wrapAddr, ← BitVec.toNat_inj, BitVec.toNat_ofNat, eq_comm]

/-- Settles O44: the cells by `read_write`, the latches by what each body does to them. -/
theorem memWriteSetsOneCell : Obligations.MemWriteSetsOneCell := by
  refine ⟨fun s n v hs => ⟨_, rfl, rfl, fun x => ?_⟩, fun i s t ht hi => ?_⟩
  · rw [State.load, State.store_mem, Memory.read_write hs]
    simp only [wrapAddr_eq_iff, apply_ite BitVec.toNat, BitVec.toNat_ofNat]
    rfl
  · obtain rfl := (exec_next_iff i s t).1 ht
    obtain ⟨k, rfl, -, -⟩ | hsame := effect_latches i s
    · exact absurd rfl hi
    · exact hsame

end Sys2Proof.Machine
end

section
/-! PROOF. The cells a step writes (20_memory.md R54, R62): at most one, by what its instruction stores, which the next fetch reads. -/

namespace Sys2Proof.Machine

/-- What a step stores: the address and the byte, where it runs an instruction that stores (20_memory.md R54). -/
def stepStore (cfg : Config) (s : State) : Option (Byte × Byte) :=
  (if s.halted then none else fetchInstr cfg.opcodeMap s).bind fun i => storeOf i (afterFetch i s)

theorem stepStore_halted (cfg : Config) {s : State} (hs : s.halted = true) : stepStore cfg s = none := by
  simp [stepStore, hs]

theorem stepStore_data {cfg : Config} {s : State} (hf : fetchInstr cfg.opcodeMap s = none) : stepStore cfg s = none := by
  simp [stepStore, hf]

theorem stepStore_instr {cfg : Config} {s : State} {i : Instr} (hs : s.halted = false) (hf : fetchInstr cfg.opcodeMap s = some i) :
    stepStore cfg s = storeOf i (afterFetch i s) := by
  simp [stepStore, hs, hf]

/-- A step writes memory where `stepStore` says, and nowhere else. -/
theorem nextState_mem (cfg : Config) (s : State) :
    (nextState cfg s).mem = (stepStore cfg s).elim s.mem fun w => s.mem.write w.1 w.2 := by
  obtain ⟨hs, ht⟩ | ⟨-, hf, ht⟩ | ⟨i, hs, hf, ht⟩ := engineStep_cases (engineStep_eq cfg s)
  · rw [ht, stepStore_halted cfg hs]; rfl
  · rw [ht, stepStore_data hf]; rfl
  · rw [ht, stepStore_instr hs hf, afterInstr, recordStep_mem, effect_mem]
    cases storeOf i (afterFetch i s) <;> rfl

/-- A step that stores nothing leaves memory. -/
theorem nextState_mem_of_no_store {cfg : Config} {s : State} (h : stepStore cfg s = none) : (nextState cfg s).mem = s.mem := by
  rw [nextState_mem, h, Option.elim_none]

/-- After a step that stores, its cell reads as the byte stored and every other as before. -/
theorem nextState_read_of_store {cfg : Config} {s : State} (hm : s.mem.wf = true) {y v : Byte} (h : stepStore cfg s = some (y, v))
    (x : Byte) : (nextState cfg s).mem.read x = if y = x then v else s.mem.read x := by
  rw [nextState_mem, h, Option.elim_some, Memory.read_write hm]

/-- Settles O32, by the two lemmas on what a step leaves in memory. -/
theorem stepsWriteOnlyTheStoredCell : Obligations.StepsWriteOnlyTheStoredCell := by
  intro cfg s t hm hst x
  obtain rfl := (engineStep_next_iff cfg s t).1 hst
  split
  · next y v hstore =>
    rw [nextState_read_of_store hm hstore]
    simp only [eq_comm]
  · next hstore => rw [nextState_mem_of_no_store hstore]

/-- Settles O27: the byte stored is what the next fetch reads at its cell, and the body that ran is that of the instruction fetched before. -/
theorem storesAreSeenByTheNextFetch : Obligations.StoresAreSeenByTheNextFetch := by
  intro cfg s t i x v hm hs hf hstore hst
  obtain rfl := (engineStep_next_iff cfg s t).1 hst
  have hload : (nextState cfg s).load x = v := by
    rw [State.load, nextState_read_of_store hm ((stepStore_instr hs hf).trans hstore), if_pos rfl]
  refine ⟨hload, fun hpc => ?_, fun hpc => ?_, effect i (afterFetch i s), exec_eq .., ?_⟩
  · rw [fetchInstr, hpc, hload]
  · rw [fetchInstr, hpc, hload]
  · rw [nextState_instr hs hf]
    exact ⟨rfl, rfl, rfl⟩

end Sys2Proof.Machine
end

section
/-! PROOF. The cells a step reads (20_memory.md R54, R57): the bytes it fetches and the cell its instruction loads from. -/

namespace Sys2Proof.Machine

/-- A memory that agrees with a state's on the cells a step from it reads. -/
structure AgreesOnReads (map : OpcodeMap) (s : State) (m : Memory) : Prop where
  opcode : m.read s.pc = s.mem.read s.pc
  operand : ∀ {i}, fetchInstr map s = some i → i.size = 2 → m.read (s.pc + 1) = s.mem.read (s.pc + 1)
  loaded : ∀ {i}, fetchInstr map s = some i → ∀ x, loadAddr i (afterFetch i s) = some x → m.read x = s.mem.read x

/-- The second byte matters to the decoder only where the instruction has one. -/
theorem decodeOp_of_operand {map : OpcodeMap} {op k k' : Byte} {i : Instr} (h : decodeOp map op k = some i)
    (hk : i.size = 2 → k' = k) : decodeOp map op k' = some i := by
  obtain ⟨hmn, -, hop⟩ := decodeOp_eq_some h
  rw [decodeOp, hmn, Option.map_some, Instr.eq_instr i k']
  intro j hj
  rw [hop, Option.ite_none_right_eq_some, Option.some.injEq] at hj
  exact (hk hj.1).trans hj.2

/-- The same instruction is fetched from a memory that agrees on its bytes. -/
theorem AgreesOnReads.fetchInstr_eq {map : OpcodeMap} {s : State} {m : Memory} (h : AgreesOnReads map s m) :
    fetchInstr map (s.setMem m) = fetchInstr map s := by
  have hop : (s.setMem m).load (s.setMem m).pc = s.load s.pc := h.opcode
  cases hf : fetchInstr map s with
  | none => rw [fetchInstr_eq_none, hop, ← fetchInstr_eq_none]; exact hf
  | some i =>
    rw [fetchInstr, hop]
    exact decodeOp_of_operand hf (h.operand hf)

/-- The trace entry does not record memory, so appending it keeps two states the same but for memory. -/
theorem recordStep_sameButMemory (cap : Nat) (s : State) (m : Memory) (op : Byte) (ins : Option Mnemonic) (k : Option Byte) {t u : State}
    (h : sameButMemory t u) : sameButMemory (recordStep cap s op ins k t) (recordStep cap (s.setMem m) op ins k u) := by
  rw [eq_setMem_of_setMem_eq h]
  rfl

/-- The next state but for memory depends only on the cells the step reads. -/
theorem AgreesOnReads.nextState_sameButMemory {cfg : Config} {s : State} {m : Memory} (h : AgreesOnReads cfg.opcodeMap s m) :
    sameButMemory (nextState cfg s) (nextState cfg (s.setMem m)) := by
  have hop : (s.setMem m).load (s.setMem m).pc = s.load s.pc := h.opcode
  have hfetch := h.fetchInstr_eq
  obtain ⟨hs, ht⟩ | ⟨hs, hf, ht⟩ | ⟨i, hs, hf, ht⟩ := engineStep_cases (engineStep_eq cfg s)
  · rw [ht, nextState_halted (s := s.setMem m) hs]; rfl
  · rw [ht, nextState_data (s := s.setMem m) hs (hfetch.trans hf), haltedOnData, haltedOnData, hop]
    exact recordStep_sameButMemory _ _ _ _ _ _ rfl
  · rw [ht, nextState_instr (s := s.setMem m) hs (hfetch.trans hf), afterInstr, afterInstr, hop]
    exact recordStep_sameButMemory _ _ _ _ _ _ (effect_setMem i (afterFetch i s) m (h.loaded hf)).symm

/-- The address an instruction stores to and the byte it stores there are none of memory's. -/
theorem storeOf_setMem (i : Instr) (s : State) (m : Memory) : storeOf i (s.setMem m) = storeOf i s := by cases i <;> rfl

/-- What a step stores depends only on the bytes it fetches. -/
theorem AgreesOnReads.stepStore_eq {cfg : Config} {s : State} {m : Memory} (h : AgreesOnReads cfg.opcodeMap s m) :
    stepStore cfg (s.setMem m) = stepStore cfg s := by
  unfold stepStore
  rw [h.fetchInstr_eq]
  exact congrArg _ (funext fun i => storeOf_setMem i (afterFetch i s) m)

/-- Settles O33: the two steps store the same, and their next states agree but for memory. -/
theorem stepsReadOnlyFetchedAndLoadedCells : Obligations.StepsReadOnlyFetchedAndLoadedCells := by
  intro cfg s t m hs hm hop hfetched hst
  have hagree : AgreesOnReads cfg.opcodeMap s m := ⟨hop, fun hf => (hfetched _ hf).1, fun hf => (hfetched _ hf).2⟩
  obtain rfl := (engineStep_next_iff cfg s t).1 hst
  refine ⟨_, engineStep_eq .., hagree.nextState_sameButMemory, fun x => ?_⟩
  cases hstore : stepStore cfg s with
  | none =>
    have hstore' := hagree.stepStore_eq.trans hstore
    exact .inr ⟨by rw [nextState_mem_of_no_store hstore], by rw [nextState_mem_of_no_store hstore', State.setMem_mem]⟩
  | some w =>
    obtain ⟨y, v⟩ := w
    have hstore' := hagree.stepStore_eq.trans hstore
    rw [nextState_read_of_store hs hstore, nextState_read_of_store (s := s.setMem m) hm hstore', State.setMem_mem]
    by_cases hx : y = x
    · exact .inl (by rw [if_pos hx, if_pos hx])
    · exact .inr ⟨if_neg hx, if_neg hx⟩

end Sys2Proof.Machine
end

section
/-! PROOF. What an inspection reports of the core (20_memory.md R66, 60_exceptions.md R220). -/

namespace Sys2Proof.Machine

@[simp] theorem disassemble_length (map : OpcodeMap) (m : Memory) (x : Byte) (n : Nat) : (disassemble map m x n).length = n := by
  induction n generalizing x with
  | zero => rfl
  | succ n ih => rw [disassemble, List.length_cons, ih]

/-- The first record of a disassembly is that of its first address (30_encoding.md R84). -/
theorem disassemble_head {map : OpcodeMap} {m : Memory} {x : Byte} {n : Nat} {l : Listing} (h : (disassemble map m x n).head? = some l) :
    l = disassembleAt map m x := by
  cases n with
  | zero => cases h
  | succ n => cases h; rfl

/-- Settles O58: both reads of a loaded session answer, with `inspection` and with `disassemble`. -/
theorem inspectionReadsTheWholeState : Obligations.InspectionReadsTheWholeState := by
  intro cfg q hl
  refine ⟨⟨inspection q.core, ?_, rfl, rfl, rfl, rfl, rfl, rfl, fun _ => rfl, rfl, rfl, rfl, rfl, rfl, rfl⟩,
    fun addr count => ⟨_, ?_, disassemble_length .., fun _ => disassemble_head⟩⟩
  · rw [hostCommand, if_pos hl]
  · rw [hostCommand, if_pos hl]

end Sys2Proof.Machine
end

section
/-! PROOF. The decoder and the encoder invert each other (30_encoding.md R70 to R78), and how many bytes stand for no mnemonic (R76). -/

namespace Sys2Proof

/-- An instruction has an operand exactly when its mnemonic's size is 2 (30_encoding.md R70). -/
theorem Instr.operand_isSome (i : Instr) : i.operand.isSome = (i.mnemonic.size == 2) := eq_of_beq i.wf_all

/-- The bytes of a mnemonic with an operand byte, which a one-byte instruction does not contain (30_encoding.md R71, R72). -/
theorem encodeWith_instr (m : OpcodeMap) (mn : Mnemonic) (k : Byte) :
    encodeWith m (mn.instr k) = m mn :: if mn.size = 2 then [k] else [] := by
  rw [encodeWith, Mnemonic.instr_mnemonic, Mnemonic.instr_operand]
  split <;> rfl

/-- The decoder reads an instruction from its bytes and leaves the bytes after them. -/
theorem decodeWith_encodeWith {m : OpcodeMap} (hm : m.wf = true) (i : Instr) (rest : List Byte) :
    decodeWith m (encodeWith m i ++ rest) = .ok (i, rest) := by
  have hlookup := mnemonicOf_map hm i.mnemonic
  cases hop : i.operand with
  | none =>
    have hsize : i.mnemonic.size ≠ 2 := by simpa [hop] using i.operand_isSome
    have hi : i.mnemonic.instr 0 = i := i.eq_instr 0 (by simp [hop])
    simpa [encodeWith, decodeWith, hop, hlookup, hsize] using hi
  | some k =>
    have hsize : i.mnemonic.size = 2 := by simpa [hop] using i.operand_isSome
    have hi : i.mnemonic.instr k = i := i.eq_instr k (by simp [hop])
    simpa [encodeWith, decodeWith, hop, hlookup, hsize] using hi

/-- What the decoder reads as an instruction are the instruction's bytes. -/
theorem eq_encodeWith_of_decodeWith {m : OpcodeMap} {bytes rest : List Byte} {i : Instr} (h : decodeWith m bytes = .ok (i, rest)) :
    bytes = encodeWith m i ++ rest := by
  cases bytes with
  | nil => cases h
  | cons op tail =>
    rw [decodeWith] at h
    cases hlookup : mnemonicOf m op with
    | none => rw [hlookup] at h; cases h
    | some mn =>
      obtain rfl := mnemonicOf_eq_some hlookup
      rw [hlookup] at h
      by_cases hsize : mn.size = 2
      · cases tail with
        | nil => simp [hsize] at h
        | cons k tail =>
          simp only [if_pos hsize, Except.ok.injEq, Prod.mk.injEq] at h
          obtain ⟨rfl, rfl⟩ := h
          rw [encodeWith_instr, if_pos hsize]; rfl
      · simp only [if_neg hsize, Except.ok.injEq, Prod.mk.injEq] at h
        obtain ⟨rfl, rfl⟩ := h
        rw [encodeWith_instr, if_neg hsize]; rfl

/-- Settles O1: the two directions are `decodeWith_encodeWith` and `eq_encodeWith_of_decodeWith`. -/
theorem decodeOfEncodeIsTheInstruction : Obligations.DecodeOfEncodeIsTheInstruction :=
  fun _ hm => ⟨decodeWith_encodeWith hm, fun _ _ _ => eq_encodeWith_of_decodeWith⟩

/-- The list of the mnemonics names each once. -/
theorem Mnemonic.all_nodup : Mnemonic.all.Nodup := by decide

/-- The bytes of an injective map, each a number below 256, are distinct. -/
theorem opcodeNumbers_nodup {m : OpcodeMap} (hm : m.wf = true) : (Mnemonic.all.map fun mn => (m mn).toNat).Nodup :=
  Mnemonic.all_nodup.map fun _ _ h => (OpcodeMap.wf_iff m).1 hm _ _ (BitVec.eq_of_toNat_eq h)

/-- A byte stands for a mnemonic exactly when its number is a mnemonic's. -/
theorem mnemonicOf_isSome_iff (m : OpcodeMap) {n : Nat} (hn : n < 256) :
    mnemonicOf m (BitVec.ofNat 8 n) ≠ none ↔ n ∈ Mnemonic.all.map fun mn => (m mn).toNat := by
  simp only [ne_eq, mnemonicOf_eq_none, not_forall, not_not, List.mem_map, Mnemonic.mem_all, true_and]
  refine exists_congr fun mn => ?_
  rw [← BitVec.toNat_inj, BitVec.toNat_ofNat, Nat.mod_eq_of_lt hn]

/-- The byte values that stand for a mnemonic are the map's twenty bytes. -/
theorem recognized_perm {m : OpcodeMap} (hm : m.wf = true) :
    ((List.range 256).filter fun n => !(mnemonicOf m (BitVec.ofNat 8 n) == none)).Perm (Mnemonic.all.map fun mn => (m mn).toNat) := by
  refine (List.perm_ext_iff_of_nodup (List.nodup_range.filter _) (opcodeNumbers_nodup hm)).2 fun n => ?_
  simp only [List.mem_filter, List.mem_range, Bool.not_eq_true', beq_eq_false_iff_ne]
  constructor
  · rintro ⟨hn, h⟩
    exact (mnemonicOf_isSome_iff m hn).1 h
  · intro h
    have hn : n < 256 := by
      obtain ⟨mn, -, rfl⟩ := List.mem_map.1 h
      exact (m mn).isLt
    exact ⟨hn, (mnemonicOf_isSome_iff m hn).2 h⟩

/-- Settles O3: of the 256 byte values the twenty of `recognized_perm` stand for a mnemonic, so 236 do not. -/
theorem everyMapLeaves236BytesUnrecognized : Obligations.EveryMapLeaves236BytesUnrecognized := by
  refine ⟨fun m hm => ?_, rfl⟩
  have hsplit := List.length_eq_length_filter_add (l := List.range 256) fun n => mnemonicOf m (BitVec.ofNat 8 n) == none
  have htwenty : (Mnemonic.all.map fun mn => (m mn).toNat).length = 20 := List.length_map ..
  rw [(recognized_perm hm).length_eq, htwenty, List.length_range] at hsplit
  omega

/-- Settles O2: each word is decoded by the look-up in the default map. -/
theorem defaultMapWordsDecode : Obligations.DefaultMapWordsDecode :=
  ⟨rfl, rfl, rfl, rfl, rfl, rfl, rfl, rfl, rfl, rfl, rfl⟩

end Sys2Proof
end

section
/-! PROOF. The disassembler (30_encoding.md R84, R86): its record is that of the instruction its bytes decode to, so a loaded image disassembles to
the program it encodes. -/

namespace Sys2Proof.Machine

/-- The record at an address where an instruction's bytes stand is the instruction's. -/
theorem disassembleAt_of_decodeOp {m : OpcodeMap} {mem : Memory} {x : Byte} {i : Instr}
    (h : decodeOp m (mem.read x) (mem.read (x + 1)) = some i) : disassembleAt m mem x = i.listing m := by
  obtain ⟨hlookup, hop, hoperand⟩ := decodeOp_eq_some h
  rw [disassembleAt, hlookup, Instr.listing, hop, hoperand]
  rfl

/-- The record of an unrecognized opcode is a raw byte (30_encoding.md R84). -/
theorem disassembleAt_raw {m : OpcodeMap} {mem : Memory} {x : Byte} (h : mnemonicOf m (mem.read x) = none) :
    disassembleAt m mem x = { opcode := mem.read x, ins := none, operand := none, size := 1 } := by
  rw [disassembleAt, h]

/-- A raw byte's record is well formed. -/
theorem rawListing_wf {m : OpcodeMap} {op : Byte} (h : mnemonicOf m op = none) :
    Listing.wf m { opcode := op, ins := none, operand := none, size := 1 } = true := by
  simp [Listing.wf, Listing.insOk, Listing.sizeOk, Listing.operandOk, h]

/-- The size of a record is a function of the opcode byte (30_encoding.md R77). -/
theorem disassembleAt_size (m : OpcodeMap) (mem : Memory) (x : Byte) :
    (disassembleAt m mem x).size = ((mnemonicOf m (mem.read x)).map Mnemonic.size).getD 1 := by
  cases h : mnemonicOf m (mem.read x) with
  | none => rw [disassembleAt_raw h]; rfl
  | some mn => rw [disassembleAt, h]; rfl

/-- Settles O4: the record is an instruction's or a raw byte's, as the fetch finds one or none, and `disassembleAt_size`. -/
theorem disassemblerAgreesWithTheEngine : Obligations.DisassemblerAgreesWithTheEngine := by
  intro m s
  have hinstr : ∀ i, fetchInstr m s = some i → disassembleAt m s.mem s.pc = i.listing m := fun i => disassembleAt_of_decodeOp
  have hraw := fun hf : fetchInstr m s = none => disassembleAt_raw (fetchInstr_eq_none.1 hf)
  refine ⟨?_, hinstr, hraw, fun mem addr h => ?_⟩
  · cases hf : fetchInstr m s with
    | none => rw [hraw hf]; exact rawListing_wf (fetchInstr_eq_none.1 hf)
    | some i => rw [hinstr i hf]; exact listing_wf_of_fetchInstr hf
  · rw [disassembleAt_size, disassembleAt_size, h]

/-- The bytes of an image stand in memory from an address on, mod 256. -/
def HoldsImage (mem : Memory) (x : Byte) (image : List Byte) : Prop :=
  ∀ j, (hj : j < image.length) → mem.read (x + BitVec.ofNat 8 j) = image[j]

/-- After a load of at most 256 bytes the whole image stands at the start: no two of its bytes are copied to one cell. -/
theorem loadImage_holdsImage (image : List Byte) (start : Nat) (s : State) (hlen : image.length ≤ 256) :
    HoldsImage (loadImage image start s).mem (wrapAddr start) image := by
  intro j hj
  rw [wrapAddr_add_ofNat]
  refine loadImage_read_last image start s j hj fun l hjl hl h => ?_
  have hmod := congrArg BitVec.toNat h
  simp only [BitVec.toNat_ofNat] at hmod
  omega

/-- The first byte of an image stands at its address. -/
theorem HoldsImage.head {mem : Memory} {x v : Byte} {image : List Byte} (h : HoldsImage mem x (v :: image)) : mem.read x = v := by
  simpa using h 0 (Nat.succ_pos _)

/-- The second of two images one after the other stands past the bytes of the first. -/
theorem HoldsImage.right {mem : Memory} {x : Byte} {first second : List Byte} (h : HoldsImage mem x (first ++ second)) :
    HoldsImage mem (x + wrapAddr first.length) second := by
  intro j hj
  have hcell := h (first.length + j) (by simpa using hj)
  rw [List.getElem_append_right (Nat.le_add_right ..)] at hcell
  simpa [wrapAddr, BitVec.ofNat_add, BitVec.add_assoc] using hcell

/-- An image that begins with an instruction's bytes decodes to the instruction. -/
theorem HoldsImage.decodeOp_eq {m : OpcodeMap} (hm : m.wf = true) {mem : Memory} {x : Byte} {i : Instr} {rest : List Byte}
    (h : HoldsImage mem x (encodeWith m i ++ rest)) : decodeOp m (mem.read x) (mem.read (x + 1)) = some i := by
  rw [h.head]
  refine decodeOp_encoded hm i _ fun k hk => ?_
  have htail : HoldsImage mem x ([m i.mnemonic] ++ k :: rest) := by simpa [encodeWith, hk] using h
  exact htail.right.head

/-- A memory that holds a program's bytes disassembles to the program, record by record (30_encoding.md R77, R86). -/
theorem HoldsImage.disassemble_eq {m : OpcodeMap} (hm : m.wf = true) {mem : Memory} {x : Byte} {p : List Instr}
    (h : HoldsImage mem x (encodeProgram m p)) : disassemble m mem x p.length = p.map (Instr.listing m) := by
  induction p generalizing x with
  | nil => rfl
  | cons i p ih =>
    rw [encodeProgram_cons] at h
    have hrest : HoldsImage mem (x + wrapAddr i.size) (encodeProgram m p) := by simpa using h.right
    rw [List.length_cons, disassemble, disassembleAt_of_decodeOp (h.decodeOp_eq hm), List.map_cons]
    exact congrArg _ (ih hrest)

/-- An image the assembler gives is the encoding of the program its lines emit (30_encoding.md R96). -/
theorem assemble_eq_ok {cfg : Config} {src : List Char} {image : List Byte} (h : assemble cfg src = .ok image) :
    ∃ p, assembleLines (sourceLines cfg.constKeyword src) = .ok p ∧ image = encodeProgram cfg.opcodeMap p := by
  unfold assemble at h
  split at h
  · cases h
  · rename_i p hp
    cases h
    exact ⟨p, hp, rfl⟩

/-- Settles O5: the image stands at the start (`loadImage_holdsImage`), and disassembles by induction over the program. -/
theorem loadedImagesDisassembleToTheirProgram : Obligations.LoadedImagesDisassembleToTheirProgram :=
  ⟨fun _ _ start s hm hlen => (loadImage_holdsImage _ start s hlen).disassemble_eq hm, fun _ _ _ => assemble_eq_ok⟩

end Sys2Proof.Machine
end

section
/-! PROOF. The step of the engine and of this hardware, as the execution of the instruction whose bytes stand at `PC` (30_encoding.md R80, R81). -/

namespace Sys2Proof.Machine

/-- The step of a running core where an instruction's bytes stand at `PC` (30_encoding.md R80). -/
theorem engineStep_of_instrAtPc {cfg : Config} {s : State} {i : Instr} (hm : cfg.opcodeMap.wf = true) (hs : s.halted = false)
    (hi : instrAtPc cfg.opcodeMap i s) : engineStep cfg s =
      mapNext (recordStep cfg.traceCap s (cfg.opcodeMap i.mnemonic) (some i.mnemonic) i.operand) (exec i (afterFetch i s)) := by
  have hop : s.load s.pc = cfg.opcodeMap i.mnemonic := hi.1
  rw [engineStep_eq, nextState_instr hs (fetchInstr_of_instrAtPc hm hi), exec_eq, mapNext_next, afterInstr, hop]

/-- Settles O7, by `engineStep_of_instrAtPc`. -/
theorem engineRunsTheInstructionAtPc : Obligations.EngineRunsTheInstructionAtPc :=
  fun _ _ _ => engineStep_of_instrAtPc

/-- Where the two bytes fetched decode to an instruction, its bytes stand at `PC`. -/
theorem instrAtPc_of_decodeWith {m : OpcodeMap} {s : State} {i : Instr} {rest : List Byte}
    (h : decodeWith m [s.load s.pc, s.load (s.pc + 1)] = .ok (i, rest)) : instrAtPc m i s := by
  have hbytes := eq_encodeWith_of_decodeWith h
  rw [encodeWith, List.cons_append, List.cons.injEq] at hbytes
  refine ⟨hbytes.1, fun k hk => ?_⟩
  have hoperand := hbytes.2
  rw [hk, Option.toList_some, List.singleton_append, List.cons.injEq] at hoperand
  exact hoperand.1

/-- Settles O6: the bytes decoded are those of O7's instruction, under the default map. -/
theorem stepRunsTheDecodedInstruction : Obligations.StepRunsTheDecodedInstruction := by
  intro s i rest hs hdecode
  have hi : instrAtPc defaultConfig.opcodeMap i s := instrAtPc_of_decodeWith hdecode
  have hop : s.load s.pc = defaultConfig.opcodeMap i.mnemonic := hi.1
  rw [step, engineStep_of_instrAtPc defaultOpcodeMap_wf hs hi, hop]

/-- Settles O8: the next state of a halted core is itself, under every configuration and so under the default one. -/
theorem haltedStepChangesNothing : Obligations.HaltedStepChangesNothing := by
  intro s hs
  have hstep : ∀ cfg, engineStep cfg s = .next s := fun cfg => by rw [engineStep_eq, nextState_halted hs]
  exact ⟨hstep defaultConfig, hstep⟩

end Sys2Proof.Machine
end

section
/-! PROOF. The assembler (30_encoding.md R90 to R101): where its errors come from, what its labels count, how it reads tokens, and what it leaves
of a session. -/

namespace Sys2Proof.Machine

/-- An error with a cause in the source, at one of the numbered lines. -/
def ErrorAtLine (ls : List (Nat × SourceLine)) (e : AsmError) : Prop :=
  e.kind ≠ .unknownOpcode ∧ e.line ∈ ls.map Prod.fst

theorem ErrorAtLine.cons {ls : List (Nat × SourceLine)} {e : AsmError} (h : ErrorAtLine ls e) (l : Nat × SourceLine) :
    ErrorAtLine (l :: ls) e := ⟨h.1, List.mem_cons_of_mem _ h.2⟩

/-- The constant pass reports errors at its constant definitions. -/
theorem constantPass_error {ls : List (Nat × SourceLine)} {cs : Symbols} {e : AsmError} (h : constantPass ls cs = .error e) :
    ErrorAtLine ls e := by
  induction ls generalizing cs with
  | nil => cases h
  | cons l rest ih =>
    obtain ⟨n, l⟩ := l
    cases l with
    | constant name value =>
      rw [constantPass] at h
      split at h
      · cases h; simp [ErrorAtLine]
      · split at h
        · cases h; simp [ErrorAtLine]
        · exact (ih h).cons _
    | empty => exact (ih h).cons _
    | label name => exact (ih h).cons _
    | instruction head args => exact (ih h).cons _

/-- The label pass reports errors at its labels and instruction lines. -/
theorem labelPass_error {ls : List (Nat × SourceLine)} {loc : Nat} {labels : Symbols} {e : AsmError}
    (h : labelPass ls loc labels = .error e) : ErrorAtLine ls e := by
  induction ls generalizing loc labels with
  | nil => cases h
  | cons l rest ih =>
    obtain ⟨n, l⟩ := l
    cases l with
    | label name =>
      rw [labelPass] at h
      split at h
      · cases h; simp [ErrorAtLine]
      · exact (ih h).cons _
    | instruction head args =>
      rw [labelPass] at h
      split at h
      · cases h; simp [ErrorAtLine]
      · exact (ih h).cons _
    | empty => exact (ih h).cons _
    | constant name value => exact (ih h).cons _

/-- The emission pass reports errors at its instruction lines. -/
theorem emissionPass_error {cs labels : Symbols} {ls : List (Nat × SourceLine)} {e : AsmError}
    (h : emissionPass cs labels ls = .error e) : ErrorAtLine ls e := by
  induction ls with
  | nil => cases h
  | cons l rest ih =>
    obtain ⟨n, l⟩ := l
    cases l with
    | instruction head args =>
      rw [emissionPass] at h
      split at h
      · rename_i hline
        cases h
        obtain ⟨hkind, rfl⟩ := instructionOfLine_error hline
        exact ⟨hkind, List.mem_cons_self⟩
      · split at h
        · rename_i hrest
          cases h
          exact (ih hrest).cons _
        · cases h
    | empty => exact (ih h).cons _
    | constant name value => exact (ih h).cons _
    | label name => exact (ih h).cons _

/-- An error of the three passes is an error of one of them. -/
theorem assembleLines_error {ls : List (Nat × SourceLine)} {e : AsmError} (h : assembleLines ls = .error e) : ErrorAtLine ls e := by
  unfold assembleLines at h
  split at h
  · rename_i hpass
    cases h
    exact constantPass_error hpass
  · split at h
    · rename_i hpass
      cases h
      exact labelPass_error hpass
    · exact emissionPass_error h

/-- An error of the assembler is an error of its passes. -/
theorem assemble_eq_error {cfg : Config} {src : List Char} {e : AsmError} (h : assemble cfg src = .error e) :
    assembleLines (sourceLines cfg.constKeyword src) = .error e := by
  unfold assemble at h
  split at h
  · rename_i hpasses
    cases h
    exact hpasses
  · cases h

/-- The numbers of a source's lines are 1 to their count (30_encoding.md R90). -/
theorem sourceLines_bounds {keyword src : List Char} {n : Nat} (h : n ∈ (sourceLines keyword src).map Prod.fst) :
    1 ≤ n ∧ n ≤ (splitLines src).length := by
  obtain ⟨x, hx, rfl⟩ := List.mem_map.1 h
  have hbounds := numberFrom_bounds 1 _ x hx
  rw [List.length_map] at hbounds
  omega

/-- Settles O55: an error is at one of the numbered lines, which are numbered from 1. -/
theorem assemblyErrorsNameALine : Obligations.AssemblyErrorsNameALine := by
  intro cfg src e h
  obtain ⟨hkind, hline⟩ := assembleLines_error (assemble_eq_error h)
  exact ⟨hkind, sourceLines_bounds hline⟩

/-- An emitted instruction line gives an instruction, and its bytes come before those of the lines after it. -/
theorem emissionPass_instruction {cs labels : Symbols} {n : Nat} {head : List Char} {args : List (List Char)}
    {rest : List (Nat × SourceLine)} {p : List Instr} (h : emissionPass cs labels ((n, .instruction head args) :: rest) = .ok p) :
    ∃ i q, p = i :: q ∧ instructionOfLine cs labels n head args = .ok i ∧ emissionPass cs labels rest = .ok q := by
  rw [emissionPass] at h
  split at h
  · cases h
  · rename_i i hline
    split at h
    · cases h
    · rename_i q hrest
      cases h
      exact ⟨i, q, rfl, hline, hrest⟩

/-- What the lines of a program emit is what each line emits, in order (30_encoding.md R96). -/
theorem emissionPass_append {cs labels : Symbols} {xs ys : List (Nat × SourceLine)} {p : List Instr}
    (h : emissionPass cs labels (xs ++ ys) = .ok p) :
    ∃ q r, p = q ++ r ∧ emissionPass cs labels xs = .ok q ∧ emissionPass cs labels ys = .ok r := by
  induction xs generalizing p with
  | nil => exact ⟨[], p, rfl, rfl, h⟩
  | cons l rest ih =>
    obtain ⟨n, l⟩ := l
    cases l with
    | instruction head args =>
      obtain ⟨i, p, rfl, hline, hrest⟩ := emissionPass_instruction h
      obtain ⟨q, r, rfl, hq, hr⟩ := ih hrest
      exact ⟨i :: q, r, rfl, by rw [emissionPass, hline, hq], hr⟩
    | empty => exact ih h
    | constant name value => exact ih h
    | label name => exact ih h

/-- A label once recorded keeps its value. -/
theorem labelPass_lookup {ls : List (Nat × SourceLine)} {loc : Nat} {old labels : Symbols} {name : List Char} {v : Byte}
    (h : labelPass ls loc old = .ok labels) (hv : old.lookup name = some v) : labels.lookup name = some v := by
  induction ls generalizing loc old with
  | nil => cases h; exact hv
  | cons l rest ih =>
    obtain ⟨n, l⟩ := l
    cases l with
    | label other =>
      rw [labelPass] at h
      split at h
      · cases h
      · exact ih h (lookup_append_of_some hv)
    | instruction head args =>
      rw [labelPass] at h
      split at h
      · cases h
      · exact ih h hv
    | empty => exact ih h hv
    | constant other value => exact ih h hv

/-- A label gets the location counter, mod 256 (30_encoding.md R93, R101). -/
theorem labelPass_label {n loc : Nat} {name : List Char} {rest : List (Nat × SourceLine)} {old labels : Symbols}
    (h : labelPass ((n, .label name) :: rest) loc old = .ok labels) : labels.lookup name = some (wrapAddr loc) := by
  rw [labelPass] at h
  split at h
  · cases h
  · rename_i hnew
    refine labelPass_lookup h ?_
    rw [List.lookup_append, Option.not_isSome_iff_eq_none.1 hnew, Option.none_or, List.lookup_cons_self]

/-- Past lines that emit a program the location counter is past the program's bytes: the two passes agree on sizes (30_encoding.md R96). -/
theorem labelPass_append {m : OpcodeMap} {cs symbols : Symbols} {xs ys : List (Nat × SourceLine)} {q : List Instr} {loc : Nat}
    {old labels : Symbols} (hq : emissionPass cs symbols xs = .ok q) (h : labelPass (xs ++ ys) loc old = .ok labels) :
    ∃ mid, labelPass ys (loc + (encodeProgram m q).length) mid = .ok labels := by
  induction xs generalizing q loc old with
  | nil => cases hq; exact ⟨old, h⟩
  | cons l rest ih =>
    obtain ⟨n, l⟩ := l
    cases l with
    | instruction head args =>
      obtain ⟨i, q, rfl, hline, hrest⟩ := emissionPass_instruction hq
      rw [List.cons_append, labelPass] at h
      split at h
      · cases h
      · rename_i mn hmn
        have hsize : i.size = mn.size := instructionOfLine_size hline hmn
        rw [encodeProgram_cons, List.length_append, encodeWith_length, hsize, ← Nat.add_assoc]
        exact ih hrest h
    | label name =>
      rw [List.cons_append, labelPass] at h
      split at h
      · cases h
      · exact ih hq h
    | empty => exact ih hq h
    | constant name value => exact ih hq h

/-- Settles O56: the emission splits at the label, where the location counter is past the bytes emitted before it. -/
theorem labelsAreByteOffsets : Obligations.LabelsAreByteOffsets := by
  intro m before after n name p cs labels _ hlabels hp
  obtain ⟨q, r, hpq, hq, hr⟩ := emissionPass_append hp
  obtain ⟨mid, hmid⟩ := labelPass_append (m := m) hq hlabels
  refine ⟨q, r, hpq, hq, hr, ?_⟩
  simpa [wrapAddr] using labelPass_label hmid

/-- The name of a mnemonic names it and no other (30_encoding.md R91). -/
theorem mnemonicOfName_mnemonicName (mn : Mnemonic) : mnemonicOfName (mnemonicName mn) = some mn := by
  cases mn <;> rfl

/-- Mnemonics are matched case-insensitively (30_encoding.md R91). -/
theorem mnemonicOfName_upper (t : List Char) : mnemonicOfName (t.map upperChar) = mnemonicOfName t := by
  have hupper : (t.map upperChar).map upperChar = t.map upperChar := by simp
  rw [mnemonicOfName, mnemonicOfName, hupper]

/-- A literal is resolved to its number, mod 256. -/
theorem resolveOperand_literal (cs labels : Symbols) {t : List Char} {v : Nat} (h : parseNumber t = some v) :
    resolveOperand cs labels t = some (wrapAddr v) := by
  rw [resolveOperand, h]

/-- A token that is no literal is looked up among the constants, then among the labels (30_encoding.md R95). -/
theorem resolveOperand_name (cs labels : Symbols) {t : List Char} (h : parseNumber t = none) :
    resolveOperand cs labels t = (cs.lookup t).or (labels.lookup t) := by
  rw [resolveOperand, h]
  cases cs.lookup t <;> rfl

/-- Settles O57: each case of the look-up by `resolveOperand_literal` or `resolveOperand_name`. -/
theorem operandsResolveInOrder : Obligations.OperandsResolveInOrder := by
  refine ⟨fun mn t => ⟨mnemonicOfName_mnemonicName mn, mnemonicOfName_upper t⟩, fun cs labels t =>
    ⟨fun v => resolveOperand_literal cs labels, fun v hlit hc => ?_, fun v hlit hc hl => ?_, fun hlit hc hl => ?_⟩⟩
  · rw [resolveOperand_name cs labels hlit, hc, Option.some_or]
  · rw [resolveOperand_name cs labels hlit, hc, hl, Option.none_or]
  · rw [resolveOperand_name cs labels hlit, hc, hl, Option.none_or]

/-- A failed assembly leaves the session as it was (30_encoding.md R97). -/
theorem Session.assemble_error {cfg : Config} {src : List Char} {e : AsmError} (h : Machine.assemble cfg src = .error e) (q : Session) :
    q.assemble cfg src = (q, .assemblyFailed e) := by
  rw [Session.assemble, h]

/-- A good assembly replaces the image last assembled (60_exceptions.md R236). -/
theorem Session.assemble_ok {cfg : Config} {src : List Char} {image : List Byte} (h : Machine.assemble cfg src = .ok image) (q : Session) :
    q.assemble cfg src = ({ q with program := some image }, .assembled image) := by
  rw [Session.assemble, h]

/-- Settles O54: the assembler gives an error or an image, and the session is that of `Session.assemble_error` or `Session.assemble_ok`. -/
theorem assemblyNeverMutatesTheMachine : Obligations.AssemblyNeverMutatesTheMachine := by
  intro cfg src q
  cases h : assemble cfg src with
  | error e =>
    exact ⟨q, .assemblyFailed e, congrArg _ (Session.assemble_error h q), rfl, rfl,
      fun _ he => ⟨rfl, congrArg _ (Except.error.inj he)⟩, nofun⟩
  | ok image =>
    refine ⟨{ q with program := some image }, .assembled image, congrArg _ (Session.assemble_ok h q), rfl, rfl, nofun, fun _ hi => ?_⟩
    cases hi
    exact ⟨rfl, rfl⟩

end Sys2Proof.Machine
end

section
/-! PROOF. The immediate loads (40_immediate_loads.md R110 to R112): the next state of each in full, so that whatever it does not name is unchanged. -/

namespace Sys2Proof.Machine

/-- `Z` from a byte is one test of the byte for 0, and no other component changes. -/
theorem State.zeroFrom_eq (s : State) (v : Byte) : s.zeroFrom v = { s with z := decide (v = 0) } :=
  congrArg s.setZ (zeroFlag_eq_decide v)

/-- `LDA_IMM` (40_immediate_loads.md R110). -/
theorem effect_ldaImm (k : Byte) (s : State) : effect (.ldaImm k) s = { s with a := k, z := decide (k = 0) } :=
  (s.setA k).zeroFrom_eq k

/-- `LDB_IMM` takes `Z` "from `B`, not from `A`" (40_immediate_loads.md R111). -/
theorem effect_ldbImm (k : Byte) (s : State) : effect (.ldbImm k) s = { s with b := k, z := decide (k = 0) } :=
  (s.setB k).zeroFrom_eq k

/-- Settles O11: the body of each load leaves its effect, which is its next state in full. -/
theorem immediateLoadsWriteTheirRegisterAndZ : Obligations.ImmediateLoadsWriteTheirRegisterAndZ := by
  intro k s
  constructor
  · rw [exec_eq, effect_ldaImm]
  · rw [exec_eq, effect_ldbImm]

end Sys2Proof.Machine
end

section
/-! PROOF. The arithmetic instructions (41_arithmetic.md R120 to R127). `ADD` and `ADC` are one addition with a carry in, and `DEC_A` is `SUB_A_IMM 1`, so
each rule is proved once for each pair. -/

namespace Sys2Proof.Machine

/-- An addition writes `A`, `Z` and `C` only (41_arithmetic.md R127). -/
theorem addWith_frame (s : State) (cin : Bool) :
    s.addWith cin = { s with a := (s.addWith cin).a, z := (s.addWith cin).z, c := (s.addWith cin).c } := rfl

/-- `A` and the carry out together are the unreduced sum (41_arithmetic.md R120, R121). -/
theorem addWith_exact (s : State) (cin : Bool) :
    (s.addWith cin).a.toNat + 256 * bitNat (s.addWith cin).c = s.a.toNat + s.b.toNat + bitNat cin := addSum_exact s.a s.b cin

/-- `Z` is that of the reduced sum, not of the sum itself (41_arithmetic.md R120). -/
theorem addWith_z_iff (s : State) (cin : Bool) : (s.addWith cin).z = true ↔ (s.addWith cin).a = 0 := zeroFlag_iff _

/-- `ADD` leaves the addition with no carry in (41_arithmetic.md R120). -/
theorem exec_add_next_iff (s t : State) : exec .add s = .next t ↔ t = s.addWith false := exec_next_iff .add s t

/-- `ADC` leaves the addition of the carry (41_arithmetic.md R121). -/
theorem exec_adc_next_iff (s t : State) : exec .adc s = .next t ↔ t = s.addWith s.c := exec_next_iff .adc s t

/-- Settles O12: both instructions by the rules of `addWith`; with no carry they are the same addition. -/
theorem addAndAdcAreExactWithCarry : Obligations.AddAndAdcAreExactWithCarry := by
  intro s
  refine ⟨⟨_, (exec_add_next_iff s _).2 rfl, addWith_frame s false, ?_, addWith_z_iff s false⟩,
    ⟨_, (exec_adc_next_iff s _).2 rfl, addWith_frame s s.c, addWith_exact s s.c, addWith_z_iff s s.c⟩, fun hc => ?_⟩
  · exact addWith_exact s false
  · rw [(exec_add_next_iff s _).2 rfl, exec_adc_next_iff, hc]

/-- Settles O15: the carry out of the low bytes is the carry in of the high bytes, so their two exact sums add up. -/
theorem sixteenBitSumsChainThroughCarry : Obligations.SixteenBitSumsChainThroughCarry := by
  intro s t u v hadd hc hadc
  rw [exec_add_next_iff] at hadd
  rw [exec_adc_next_iff] at hadc
  have hlow : t.a.toNat + 256 * bitNat t.c = s.a.toNat + s.b.toNat := by rw [hadd]; exact addWith_exact s false
  have hhigh : v.a.toNat + 256 * bitNat v.c = u.a.toNat + u.b.toNat + bitNat t.c := by rw [hadc, ← hc]; exact addWith_exact u u.c
  omega

/-- A difference wraps: plus what was taken away it is the byte again, mod 256 (41_arithmetic.md R125). -/
theorem byte_sub_add (x k : Byte) : ((x - k).toNat + k.toNat) % 256 = x.toNat := by
  have h : (x - k + k).toNat = x.toNat := congrArg BitVec.toNat (BitVec.sub_add_cancel x k)
  rwa [BitVec.toNat_add] at h

/-- `SUB_A_IMM` writes `A` and `Z` only, and no carry (41_arithmetic.md R122). -/
theorem effect_subAImm_frame (k : Byte) (s : State) :
    effect (.subAImm k) s = { s with a := (effect (.subAImm k) s).a, z := (effect (.subAImm k) s).z } := rfl

/-- `SUB_A_IMM` leaves the difference in `A`. -/
theorem effect_subAImm_a (k : Byte) (s : State) : (effect (.subAImm k) s).a = s.a - k := rfl

/-- The difference `SUB_A_IMM` leaves is 0, with `Z` set, exactly when `A` was the operand. -/
theorem effect_subAImm_z_iff (k : Byte) (s : State) : (effect (.subAImm k) s).z = true ↔ s.a = k :=
  (zeroFlag_iff _).trans (byte_sub_eq_zero s.a k)

/-- `DEC_A` does what `SUB_A_IMM 1` does (41_arithmetic.md R124). -/
theorem effect_decA (s : State) : effect .decA s = effect (.subAImm 1) s := rfl

/-- `CMP_A_IMM` discards the difference: it is seen in `Z` only (41_arithmetic.md R123). -/
theorem effect_cmpAImm (k : Byte) (s : State) : effect (.cmpAImm k) s = { s with z := decide (s.a = k) } := by
  have hz : effect (.cmpAImm k) s = { s with z := decide (s.a - k = 0) } := s.zeroFrom_eq (s.a - k)
  simpa only [byte_sub_eq_zero] using hz

/-- Settles O13: `SUB_A_IMM` and `CMP_A_IMM` by their effect, `DEC_A` as `SUB_A_IMM 1`. -/
theorem subtractCompareAndDecrementWrap : Obligations.SubtractCompareAndDecrementWrap := by
  intro k s
  refine ⟨⟨_, exec_eq _ s, effect_subAImm_frame k s, ?_, effect_subAImm_z_iff k s⟩, ?_, ⟨effect (.subAImm 1) s, ?_,
    effect_subAImm_frame 1 s, ?_, effect_subAImm_z_iff 1 s⟩⟩
  · rw [effect_subAImm_a, byte_sub_add]
  · rw [exec_eq, effect_cmpAImm]
  · rw [exec_eq, effect_decA]
  · rw [effect_subAImm_a, byte_sub_one_add_one]

/-- A body that neither loads nor stores does the same with any memory, and leaves that memory as it was. -/
theorem effect_setMem_of_no_access {i : Instr} {s : State} (hload : loadAddr i s = none) (hstore : storeOf i s = none) (m : Memory) :
    effect i (s.setMem m) = (effect i s).setMem m := by
  have hsame : (effect i (s.setMem m)).setMem [] = (effect i s).setMem [] := effect_setMem i s m (by simp [hload])
  have hmem : (effect i (s.setMem m)).mem = m := by rw [effect_mem, storeOf_setMem, hstore, State.setMem_mem]
  rw [eq_setMem_of_setMem_eq hsame, hmem]

/-- The arithmetic instructions write `A` and the flags only (41_arithmetic.md R127). -/
theorem effect_arithmetic_frame {i : Instr} (s : State) (hi : i.mnemonic ∈ [.ADD, .ADC, .SUB_A_IMM, .CMP_A_IMM, .DEC_A]) :
    effect i s = { s with a := (effect i s).a, z := (effect i s).z, c := (effect i s).c } := by
  cases i with
  | add | adc | subAImm k | cmpAImm k | decA => rfl
  | _ => simp [Instr.mnemonic] at hi

/-- The arithmetic instructions access no memory beyond their own bytes (41_arithmetic.md R127). -/
theorem arithmetic_no_access {i : Instr} (s : State) (hi : i.mnemonic ∈ [.ADD, .ADC, .SUB_A_IMM, .CMP_A_IMM, .DEC_A]) :
    loadAddr i s = none ∧ storeOf i s = none := by
  cases i with
  | add | adc | subAImm k | cmpAImm k | decA => exact ⟨rfl, rfl⟩
  | _ => simp [Instr.mnemonic] at hi

/-- Settles O14: the frame of the arithmetic instructions, and that they access no memory. -/
theorem arithmeticTouchesOnlyAAndTheFlags : Obligations.ArithmeticTouchesOnlyAAndTheFlags := by
  intro i s m hi
  obtain ⟨hload, hstore⟩ := arithmetic_no_access s hi
  refine ⟨⟨_, exec_eq i s, effect_arithmetic_frame s hi⟩, ?_⟩
  rw [exec_eq, exec_eq, mapNext_next, effect_setMem_of_no_access hload hstore m]

end Sys2Proof.Machine
end

section
/-! PROOF. The output port (42_output.md R140 to R142): what `PRINTA` leaves in full, and what a step appends, of which a run's output is a chain. -/

namespace Sys2Proof.Machine

/-- `PRINTA` (42_output.md R142): it reads `A` and writes the output only. -/
theorem effect_printA (s : State) : effect .printA s = { s with out := s.out ++ [s.a] } := rfl

/-- Settles O16: the body of `PRINTA` leaves its effect, which is its next state in full. -/
theorem printAAppendsA : Obligations.PrintAAppendsA := by
  intro s
  rw [exec_eq, effect_printA]

/-- A step appends `A` when it runs `PRINTA`, the only instruction that writes the output (42_output.md R142). -/
theorem nextState_out (cfg : Config) (s : State) :
    (nextState cfg s).out =
      if s.halted = false ∧ fetchInstr cfg.opcodeMap s = some .printA then s.out ++ [s.a] else s.out := by
  obtain ⟨hs, ht⟩ | ⟨-, hf, ht⟩ | ⟨i, hs, hf, ht⟩ := engineStep_cases (engineStep_eq cfg s)
  · simp [ht, hs]
  · simp [ht, hf, haltedOnData]
  · simp [ht, hs, hf, afterInstr, effect_out]

/-- A step appends at most one byte to the output. -/
theorem nextState_out_append (cfg : Config) (s : State) : ∃ more, (nextState cfg s).out = s.out ++ more ∧ more.length ≤ 1 := by
  rw [nextState_out]
  split
  · exact ⟨[s.a], rfl, Nat.le_refl 1⟩
  · exact ⟨[], (List.append_nil _).symm, Nat.zero_le 1⟩

/-- A run appends to the output, and at most one byte per step. -/
theorem engineRun_out_append {cfg : Config} {n : Nat} {s t : State} (h : engineRun cfg n s = .next t) :
    ∃ more, t.out = s.out ++ more ∧ more.length ≤ n := by
  induction n generalizing s with
  | zero =>
    cases h
    exact ⟨[], (List.append_nil _).symm, Nat.le_refl 0⟩
  | succ n ih =>
    rw [engineRun_succ] at h
    obtain ⟨first, hfirst, hfirstLen⟩ := nextState_out_append cfg s
    obtain ⟨rest, hrest, hrestLen⟩ := ih h
    refine ⟨first ++ rest, ?_, ?_⟩
    · rw [hrest, hfirst, List.append_assoc]
    · rw [List.length_append]
      omega

/-- Settles O36: a step by `nextState_out`, a run by `engineRun_out_append`. -/
theorem outputIsAppendOnly : Obligations.OutputIsAppendOnly := by
  refine ⟨fun cfg s t h => ?_, fun _ _ _ _ => engineRun_out_append⟩
  obtain rfl := (engineStep_next_iff cfg s t).1 h
  exact nextState_out cfg s

end Sys2Proof.Machine
end

section
/-! PROOF. The jumps (43_jumps.md R145 to R149): the next state of each in full, and the run of a `JMP` to its own address, which repeats itself. -/

namespace Sys2Proof.Machine

/-- `JMP` (43_jumps.md R145). -/
theorem effect_jmp (k : Byte) (s : State) : effect (.jmp k) s = { s with pc := k } := rfl

/-- `JZ` is taken where `Z` is 1 (43_jumps.md R146, decision D4). -/
theorem effect_jz (k : Byte) (s : State) : effect (.jz k) s = { s with pc := if s.z = true then k else s.pc } := rfl

/-- `JNZ` is taken where `Z` is 0 (43_jumps.md R147, decision D4): its condition is the negated flag. -/
theorem effect_jnz (k : Byte) (s : State) : effect (.jnz k) s = { s with pc := if s.z = false then k else s.pc } := by
  have hpc : branchPc (!s.z) k s.pc = if s.z = false then k else s.pc := by cases s.z <;> rfl
  exact congrArg s.setPc hpc

/-- Settles O17: the body of each jump leaves its effect, which is its next state in full. -/
theorem jumpsWriteOnlyPc : Obligations.JumpsWriteOnlyPc := by
  intro k s
  refine ⟨?_, ?_, ?_⟩
  · rw [exec_eq, effect_jmp]
  · rw [exec_eq, effect_jz]
  · rw [exec_eq, effect_jnz]

/-- A step on a `JMP` to its own address puts `PC` back where it was, and so only appends to the trace. -/
theorem nextState_selfJump {cfg : Config} {s : State} (hm : cfg.opcodeMap.wf = true) (hs : s.halted = false)
    (hj : instrAtPc cfg.opcodeMap (.jmp s.pc) s) : nextState cfg s = { s with trace := (nextState cfg s).trace } := by
  rw [nextState_instr hs (fetchInstr_of_instrAtPc hm hj), afterInstr, effect_jmp]
  rfl

/-- No step reads the trace, so a state that differs from the self-jump's in the trace only is a self-jump again, and every run of it keeps the rest. -/
theorem engineRun_selfJump {cfg : Config} {n : Nat} {s t : State} (hm : cfg.opcodeMap.wf = true) (hs : s.halted = false)
    (hj : instrAtPc cfg.opcodeMap (.jmp s.pc) s) (ht : engineRun cfg n s = .next t) : t = { s with trace := t.trace } := by
  refine engineRun_induct (P := fun u => u = { s with trace := u.trace }) (fun u hu => ?_) rfl ht
  rw [hu]
  exact nextState_selfJump (s := { s with trace := u.trace }) hm hs hj

/-- Settles O26: every run completes, and one of a self-jump keeps all but the trace, `halted` with the rest. -/
theorem selfJumpNeverHalts : Obligations.SelfJumpNeverHalts := by
  intro cfg n s hm hs hj
  obtain ⟨t, ht⟩ := engineRun_next cfg n s
  exact ⟨t, ht, engineRun_selfJump hm hs hj ht⟩

end Sys2Proof.Machine
end

section
/-! PROOF. Load and store absolute (44_memory_access.md R155 to R158): the next state of each in full, then which cells each touches, and what each does
over another memory. -/

namespace Sys2Proof.Machine

/-- `LDA_MEM` (44_memory_access.md R155): whether `Z` is written is the open parameter's to say (decision D3). -/
theorem effect_ldaMem (k : Byte) (s : State) :
    effect (.ldaMem k) s =
      { s with a := s.mem.read k, z := if Config.ldaMemSetsZ = true then decide (s.mem.read k = 0) else s.z } := by
  rw [← zeroFlag_eq_decide]
  rfl

/-- Settles O18: the body leaves its effect, which is its next state in full, whatever the parameter. -/
theorem ldaMemLoadsTheCell : Obligations.LdaMemLoadsTheCell := by
  intro k s
  rw [exec_eq, effect_ldaMem]

/-- `STA_MEM` writes memory, `lastWrite` and `watchHit` only (44_memory_access.md R156, R157). -/
theorem effect_staMem_frame (k : Byte) (s : State) :
    effect (.staMem k) s =
      { s with mem := (effect (.staMem k) s).mem, lastWrite := some k, watchHit := (effect (.staMem k) s).watchHit } := rfl

/-- `STA_MEM` stores `A` at its address and leaves every other cell (44_memory_access.md R156, 20_memory.md R53). -/
theorem effect_staMem_read (k : Byte) {s : State} (hs : s.mem.wf = true) (x : Byte) :
    (effect (.staMem k) s).mem.read x = if x = absAddr k then s.a else s.mem.read x := by
  have hmem : (effect (.staMem k) s).mem = s.mem.write (absAddr k) s.a := effect_mem (.staMem k) s
  rw [hmem, Memory.read_write hs]
  simp only [eq_comm (a := x)]

/-- The cell `STA_MEM` writes reads as `A`. -/
theorem effect_staMem_read_same (k : Byte) {s : State} (hs : s.mem.wf = true) :
    (effect (.staMem k) s).mem.read (absAddr k) = s.a := by
  rw [effect_staMem_read k hs, if_pos rfl]

theorem effect_staMem_read_other {k x : Byte} {s : State} (hs : s.mem.wf = true) (hx : x ≠ absAddr k) :
    (effect (.staMem k) s).mem.read x = s.mem.read x := by
  rw [effect_staMem_read k hs, if_neg hx]

/-- The comparator only ever raises the latch, and only at the armed address (44_memory_access.md R157, decision D9). -/
theorem effect_staMem_watchHit_iff (k : Byte) (s : State) :
    (effect (.staMem k) s).watchHit = true ↔ s.watchHit = true ∨ s.wp = some k := by
  rw [effect_watchHit, Bool.or_eq_true, beq_iff_eq]

/-- Settles O19: the frame, the cells and the latch of `STA_MEM`. -/
theorem staMemStoresAndCompares : Obligations.StaMemStoresAndCompares := by
  intro k s hs
  exact ⟨_, exec_eq (.staMem k) s, effect_staMem_frame k s, effect_staMem_read k hs, effect_staMem_watchHit_iff k s⟩

/-- `LDA_MEM` reads no cell but the one it loads: over a memory that agrees there it does the same, and leaves that memory as it was. -/
theorem effect_ldaMem_setMem {k : Byte} {s : State} {m : Memory} (h : m.read (absAddr k) = s.mem.read (absAddr k)) :
    effect (.ldaMem k) (s.setMem m) = (effect (.ldaMem k) s).setMem m := by
  have hk : m.read k = s.mem.read k := h
  rw [effect_ldaMem, effect_ldaMem, State.setMem_mem, hk]
  rfl

/-- `STA_MEM` reads no cell: over any memory it does the same to everything but memory. -/
theorem effect_staMem_setMem (k : Byte) (s : State) (m : Memory) :
    sameButMemory (effect (.staMem k) s) (effect (.staMem k) (s.setMem m)) := by
  have hload : loadAddr (.staMem k) s = none := rfl
  exact (effect_setMem (.staMem k) s m (by simp [hload])).symm

/-- Settles O20: each body leaves its effect, over either memory; the cell `STA_MEM` writes is `A` in both. -/
theorem loadAndStoreAccessOneByte : Obligations.LoadAndStoreAccessOneByte := by
  intro k s m hs hm
  constructor
  · refine ⟨_, exec_eq (.ldaMem k) s, rfl, rfl, rfl, rfl, rfl, fun hagree => ?_⟩
    rw [exec_eq, effect_ldaMem_setMem hagree]
  · have hcell : (effect (.staMem k) s).mem.read (absAddr k) = (effect (.staMem k) (s.setMem m)).mem.read (absAddr k) :=
      (effect_staMem_read_same k hs).trans (effect_staMem_read_same k (s := s.setMem m) hm).symm
    exact ⟨_, _, exec_eq (.staMem k) s, rfl, rfl, rfl, rfl, rfl, rfl, fun _ hx => effect_staMem_read_other hs hx,
      exec_eq (.staMem k) (s.setMem m), effect_staMem_setMem k s m, hcell,
      fun _ hx => effect_staMem_read_other (s := s.setMem m) hm hx⟩

end Sys2Proof.Machine
end

section
/-! PROOF. The stack (45_stack.md R165 to R171): what a push leaves and what a pop reads, first of one body, then of a `PUSH_A` and a `POP_B` in two steps. -/

namespace Sys2Proof.Machine

/-- A push changes memory and `SP` only (45_stack.md R171). -/
theorem State.push_frame (s : State) (v : Byte) : s.push v = { s with mem := (s.push v).mem, sp := s.sp - 1 } := rfl

/-- A push writes the cell `SP` pointed at and leaves every other (45_stack.md R165). -/
theorem State.push_read {s : State} (hs : s.mem.wf = true) (v x : Byte) :
    (s.push v).mem.read x = if x = s.pushAddr then v else s.mem.read x := by
  rw [State.push_mem, Memory.read_write hs, State.pushAddr]
  simp only [eq_comm (a := x)]

/-- A push leaves the byte at every address but the one it writes. -/
theorem State.push_load_other {s : State} (hs : s.mem.wf = true) (v : Byte) {x : Byte} (hx : x ≠ s.pushAddr) :
    (s.push v).load x = s.load x := by
  rw [State.load, State.push_read hs, if_neg hx, State.load]

/-- A pop reads the cell a push before it wrote, also where `SP` wraps (45_stack.md R165, R170). -/
theorem State.push_popAddr (s : State) (v : Byte) : (s.push v).popAddr = s.pushAddr := BitVec.sub_add_cancel s.sp 1

/-- The byte popped after a push is the byte pushed. -/
theorem State.push_popByte {s : State} (hs : s.mem.wf = true) (v : Byte) : (s.push v).popByte = v := by
  rw [State.popByte, State.push_popAddr, State.load, State.push_read hs, if_pos rfl]

/-- `POP_A` (45_stack.md R167). -/
theorem effect_popA (s : State) :
    effect .popA s = { s with sp := s.popAddr, a := s.popByte, z := decide (s.popByte = 0) } :=
  (s.popSp.setA s.popByte).zeroFrom_eq s.popByte

/-- `POP_B` takes `Z` from `B` (45_stack.md R169). -/
theorem effect_popB (s : State) :
    effect .popB s = { s with sp := s.popAddr, b := s.popByte, z := decide (s.popByte = 0) } :=
  (s.popSp.setB s.popByte).zeroFrom_eq s.popByte

/-- Settles O21: the two pushes are one push of either register, and each pop leaves its effect, which is its next state in full. -/
theorem stackDiscipline : Obligations.StackDiscipline := by
  refine ⟨fun s hs => ⟨⟨_, exec_eq .pushA s, s.push_frame s.a, State.push_read hs s.a⟩,
    ⟨_, exec_eq .pushB s, s.push_frame s.b, State.push_read hs s.b⟩⟩,
    fun s => ⟨?_, ?_, rfl, fun hsp => ?_, fun hsp => ?_⟩, rfl, fun t ht => ?_⟩
  · rw [exec_eq, effect_popA]; rfl
  · rw [exec_eq, effect_popB]; rfl
  · rw [hsp]; rfl
  · rw [hsp]; rfl
  · rw [(exec_next_iff .pushA State.reset t).1 ht]; rfl

/-- `POP_B` right after a push takes back the push: `SP` is where it was, and `B` holds the byte pushed. -/
theorem effect_popB_push {s : State} (hs : s.mem.wf = true) (v : Byte) :
    effect .popB (s.push v) = { s with b := v, z := decide (v = 0), mem := (s.push v).mem } := by
  rw [effect_popB, State.push_popByte hs, State.push_popAddr]
  rfl

/-- The opcode byte alone places an instruction that has no operand. -/
theorem instrAtPc_of_no_operand {m : OpcodeMap} {i : Instr} {s : State} (hi : i.operand = none)
    (hop : s.load s.pc = m i.mnemonic) : instrAtPc m i s :=
  ⟨hop, fun k hk => by rw [hi] at hk; cases hk⟩

/-- A step on an instruction's bytes leaves what its body does after the fetch, but for the trace. -/
theorem nextState_of_instrAtPc {cfg : Config} {i : Instr} {s : State} (hm : cfg.opcodeMap.wf = true) (hs : s.halted = false)
    (hi : instrAtPc cfg.opcodeMap i s) : ∃ tr, nextState cfg s = (effect i (afterFetch i s)).setTrace tr :=
  ⟨_, nextState_instr hs (fetchInstr_of_instrAtPc hm hi)⟩

/-- A step on `PUSH_A` is a push of `A` by the state past its fetch. -/
theorem nextState_pushA {cfg : Config} {s : State} (hm : cfg.opcodeMap.wf = true) (hs : s.halted = false)
    (hop : s.load s.pc = cfg.opcodeMap .PUSH_A) :
    ∃ tr, nextState cfg s = ({ s with pc := s.pc + 1, trace := tr } : State).push s.a :=
  nextState_of_instrAtPc (i := .pushA) hm hs (instrAtPc_of_no_operand rfl hop)

/-- A step on `POP_B` right after a push takes back the push. -/
theorem nextState_popB_push {cfg : Config} {s : State} {v : Byte} (hm : cfg.opcodeMap.wf = true) (hw : s.mem.wf = true)
    (hs : s.halted = false) (hop : (s.push v).load s.pc = cfg.opcodeMap .POP_B) :
    ∃ tr, nextState cfg (s.push v) =
      { s with pc := s.pc + 1, b := v, z := decide (v = 0), mem := (s.push v).mem, trace := tr } := by
  obtain ⟨tr, hstep⟩ := nextState_of_instrAtPc (i := .popB) (s := s.push v) hm hs (instrAtPc_of_no_operand rfl hop)
  exact ⟨tr, hstep.trans (congrArg (·.setTrace tr) (effect_popB_push (s := afterFetch .popB s) hw v))⟩

/-- Settles O24: the push leaves the byte of the `POP_B`, which the second step fetches, and that pop takes back the push. -/
theorem pushAThenPopBCopiesAToB : Obligations.PushAThenPopBCopiesAToB := by
  intro cfg s hm hw hs hpush hpop hne
  obtain ⟨tr, hfirst⟩ := nextState_pushA hm hs hpush
  have hkept : (s.push s.a).load (s.pc + 1) = cfg.opcodeMap .POP_B := (State.push_load_other hw s.a hne.symm).trans hpop
  obtain ⟨tr', hsecond⟩ := nextState_popB_push (s := { s with pc := s.pc + 1, trace := tr }) hm hw hs hkept
  have hpc : s.pc + 1 + 1 = s.pc + 2 := BitVec.add_assoc s.pc 1 1
  rw [engineRun_succ, hfirst, engineRun_succ, hsecond, engineRun_zero]
  refine ⟨_, rfl, ?_, State.push_read hw s.a⟩
  rw [← hpc]

end Sys2Proof.Machine
end

section
/-! PROOF. Call and return (46_call_return.md R180, R181): a `CALL` is a push and a jump, a `RET` takes back the push it finds, first of one body, then of a
`CALL` to a `RET` in two steps. -/

namespace Sys2Proof.Machine

/-- `CALL` pushes the `PC` its body begins with, and jumps (46_call_return.md R180). -/
theorem effect_call (k : Byte) (s : State) : effect (.call k) s = (s.push s.pc).setPc k := rfl

/-- `RET` pops into `PC` (46_call_return.md R181). -/
theorem effect_ret (s : State) : effect .ret s = { s with sp := s.popAddr, pc := s.popByte } := rfl

/-- Settles O22: `CALL` has the frame and the cells of its push, and `RET` leaves its effect, which is its next state in full. -/
theorem callPushesAndRetPops : Obligations.CallPushesAndRetPops := by
  intro k s
  constructor
  · intro hs
    rw [exec_eq, effect_call]
    exact ⟨_, rfl, congrArg (·.setPc k) (s.push_frame s.pc), State.push_read hs s.pc⟩
  · rw [exec_eq, effect_ret]
    rfl

/-- `RET` right after a push goes to the byte pushed, with `SP` where it was and no flag written. -/
theorem effect_ret_push {s : State} (hs : s.mem.wf = true) (v : Byte) :
    effect .ret (s.push v) = { s with pc := v, mem := (s.push v).mem } := by
  rw [effect_ret, State.push_popByte hs, State.push_popAddr]
  rfl

/-- A step on `CALL` leaves the push of the return address by the state that stands at the target. -/
theorem nextState_call {cfg : Config} {k : Byte} {s : State} (hm : cfg.opcodeMap.wf = true) (hs : s.halted = false)
    (hi : instrAtPc cfg.opcodeMap (.call k) s) :
    ∃ tr, nextState cfg s = ({ s with pc := k, trace := tr } : State).push (s.pc + 2) :=
  nextState_of_instrAtPc hm hs hi

/-- A step on `RET` right after a push goes to the byte pushed. -/
theorem nextState_ret_push {cfg : Config} {s : State} {v : Byte} (hm : cfg.opcodeMap.wf = true) (hw : s.mem.wf = true)
    (hs : s.halted = false) (hop : (s.push v).load s.pc = cfg.opcodeMap .RET) :
    ∃ tr, nextState cfg (s.push v) = { s with pc := v, mem := (s.push v).mem, trace := tr } := by
  obtain ⟨tr, hstep⟩ := nextState_of_instrAtPc (i := .ret) (s := s.push v) hm hs (instrAtPc_of_no_operand rfl hop)
  exact ⟨tr, hstep.trans (congrArg (·.setTrace tr) (effect_ret_push (s := afterFetch .ret s) hw v))⟩

/-- Settles O25: the push leaves the byte of the `RET`, which the second step fetches, and that `RET` takes back the push. -/
theorem callToARetComesBack : Obligations.CallToARetComesBack := by
  intro cfg s k hm hw hs hcall hret hne
  obtain ⟨tr, hfirst⟩ := nextState_call hm hs hcall
  have hkept : (s.push (s.pc + 2)).load k = cfg.opcodeMap .RET := (State.push_load_other hw (s.pc + 2) hne.symm).trans hret
  obtain ⟨tr', hsecond⟩ := nextState_ret_push (s := { s with pc := k, trace := tr }) hm hw hs hkept
  rw [engineRun_succ, hfirst, engineRun_succ, hsecond, engineRun_zero]
  exact ⟨_, rfl, rfl, State.push_read hw (s.pc + 2)⟩

end Sys2Proof.Machine
end

section
/-! PROOF. What every step does (60_exceptions.md R200 to R203, R211, R212): it completes, keeps the invariant, and from a running core appends one entry;
and the two ways to halt, `HALT` (47_halt.md R190) and an unrecognized opcode (R192, R193). -/

namespace Sys2Proof.Machine

/-- Settles O42, by `nextState_inv`: the next state is the only one a step answers. -/
theorem everyStepKeepsTheInvariant : Obligations.EveryStepKeepsTheInvariant := by
  intro cfg s t hi hst
  rw [(engineStep_next_iff cfg s t).1 hst]
  exact nextState_inv hi

/-- `HALT` (47_halt.md R190), with its ghost cause (decision D14). -/
theorem effect_halt (s : State) : effect .halt s = { s with halted := true, haltCause := .haltInstr } := rfl

/-- Settles O23: the body of `HALT` leaves its effect, which is its next state in full. -/
theorem haltStopsTheCore : Obligations.HaltStopsTheCore := by
  intro s
  rw [exec_eq, effect_halt]

/-- Settles O10: bodies leave their effect and steps their next state, which on an unrecognized opcode is halted. -/
theorem executionNeverRaisesErrors : Obligations.ExecutionNeverRaisesErrors :=
  ⟨fun i s => ⟨_, exec_eq i s⟩,
    fun cfg s => ⟨_, engineStep_eq cfg s, fun hs hf => (nextState_halted_iff cfg hs).2 (.inr hf)⟩,
    fun s => ⟨_, engineStep_eq defaultConfig s⟩, fun ⟨r⟩ => nomatch r⟩

/-- A trim after one entry is appended keeps one entry more than there were, up to the capacity (60_exceptions.md R212). -/
theorem trimTrace_append_length (cap : Nat) (t : List TraceEntry) (e : TraceEntry) :
    (trimTrace cap (t ++ [e])).length = min cap (t.length + 1) := by
  rw [trimTrace_length, List.length_append, List.length_singleton]

/-- The entry that a step of a running core appends (60_exceptions.md R211). -/
def stepEntry (cfg : Config) (s : State) : ExecEntry :=
  execEntry s (s.load s.pc) ((fetchInstr cfg.opcodeMap s).map Instr.mnemonic) ((fetchInstr cfg.opcodeMap s).bind Instr.operand)
    (nextState cfg s)

/-- A step of a running core appends its entry and keeps the newest ones (60_exceptions.md R212): the body before the recording leaves the trace. -/
theorem nextState_trace (cfg : Config) {s : State} (hs : s.halted = false) :
    (nextState cfg s).trace = trimTrace cfg.traceCap (s.trace ++ [.exec (stepEntry cfg s)]) := by
  unfold stepEntry
  cases hf : fetchInstr cfg.opcodeMap s with
  | none =>
    rw [nextState_data hs hf]
    rfl
  | some i =>
    rw [nextState_instr hs hf, afterInstr, recordStep_trace, effect_trace]
    rfl

/-- Settles O40: the entry is `stepEntry`, whose fields are those listed. -/
theorem eachExecutingStepAppendsItsTraceEntry : Obligations.EachExecutingStepAppendsItsTraceEntry := by
  intro cfg s t hst
  obtain rfl := (engineStep_next_iff cfg s t).1 hst
  refine ⟨fun hs => by rw [nextState_halted hs], fun hs => ?_⟩
  obtain ⟨dropped, hdropped⟩ := trimTrace_suffix cfg.traceCap (s.trace ++ [.exec (stepEntry cfg s)])
  rw [← nextState_trace cfg hs] at hdropped
  refine ⟨?_, stepEntry cfg s, dropped, hdropped, rfl, rfl, rfl, rfl, rfl, rfl, rfl, rfl⟩
  rw [nextState_trace cfg hs, trimTrace_append_length]

/-- A step on an unrecognized opcode in full (47_halt.md R192, R193): past one byte, halted by that byte, and recorded. -/
theorem haltedOnData_eq (cfg : Config) (s : State) :
    haltedOnData cfg s =
      { s with
        pc := s.pc + 1, halted := true, haltCause := .undefinedOpcode (s.load s.pc),
        trace := trimTrace cfg.traceCap
          (s.trace ++ [.exec ⟨s.pc, s.load s.pc, none, none, s.view, s.view, s.pc + 1, true⟩]) } := rfl

/-- Settles O9: no mnemonic's byte means that nothing is fetched, and the next state is that of `haltedOnData_eq`. -/
theorem unrecognizedOpcodeHalts : Obligations.UnrecognizedOpcodeHalts := by
  intro cfg s hs hop
  have hf : fetchInstr cfg.opcodeMap s = none := fetchInstr_eq_none.2 ((mnemonicOf_eq_none _ _).2 hop)
  refine ⟨nextState cfg s, engineStep_eq cfg s, ?_⟩
  rw [nextState_data hs hf, haltedOnData_eq]
  exact ⟨rfl, trimTrace_append_length .., trimTrace_suffix ..⟩

/-- Settles O38: only a `STA_MEM` raises the watch-hit, and it does not halt. -/
theorem haltAndWatchHitExcludeEachOther : Obligations.HaltAndWatchHitExcludeEachOther := by
  rintro cfg s t hst ⟨hs, ht, hlow, hraised⟩
  obtain rfl := (engineStep_next_iff cfg s t).1 hst
  obtain ⟨k, hsta, -⟩ | ⟨-, hkept⟩ := nextState_latches cfg s
  · obtain hf | hf := (nextState_halted_iff cfg hs).1 ht
    · rw [hsta] at hf; cases hf
    · rw [hsta] at hf; cases hf
  · rw [hkept, hlow] at hraised; cases hraised

end Sys2Proof.Machine
end

section
/-! PROOF. Determinism (60_exceptions.md R238): neither the watchpoint nor its latch, which are all that two loads of one image can leave different, affects
anything else of a run. -/

namespace Sys2Proof.Machine

/-- What does not depend on the watchpoint and its latch is the same in states that agree on the rest. -/
theorem sameButWatch.apply_eq {α : Type} {f : State → α} (hf : ∀ s w x, f ((s.setWp w).setWatchHit x) = f s) {s t : State}
    (h : sameButWatch s t) : f s = f t := by
  rw [eq_setWatch_of_setWatch_eq h, hf]

theorem sameButWatch.halted_eq {s t : State} (h : sameButWatch s t) : s.halted = t.halted := h.apply_eq fun _ _ _ => rfl
theorem sameButWatch.out_eq {s t : State} (h : sameButWatch s t) : s.out = t.out := h.apply_eq fun _ _ _ => rfl
theorem sameButWatch.trace_eq {s t : State} (h : sameButWatch s t) : s.trace = t.trace := h.apply_eq fun _ _ _ => rfl
theorem sameButWatch.opcode_eq {s t : State} (h : sameButWatch s t) : s.load s.pc = t.load t.pc :=
  h.apply_eq (f := fun u => u.load u.pc) fun _ _ _ => rfl
theorem sameButWatch.fetchInstr_eq (m : OpcodeMap) {s t : State} (h : sameButWatch s t) : fetchInstr m s = fetchInstr m t :=
  h.apply_eq fun _ _ _ => rfl

/-- The trace entry does not record the watchpoint. -/
theorem recordStep_sameButWatch (cap : Nat) (op : Byte) (ins : Option Mnemonic) (k : Option Byte) {s s' t t' : State}
    (hs : sameButWatch s s') (ht : sameButWatch t t') : sameButWatch (recordStep cap s op ins k t) (recordStep cap s' op ins k t') := by
  rw [eq_setWatch_of_setWatch_eq hs, eq_setWatch_of_setWatch_eq ht]
  rfl

theorem haltedOnData_sameButWatch (cfg : Config) {s t : State} (h : sameButWatch s t) :
    sameButWatch (haltedOnData cfg s) (haltedOnData cfg t) := by
  rw [eq_setWatch_of_setWatch_eq h]
  rfl

/-- Of what a body leaves only the latch depends on the watchpoint. -/
theorem effect_sameButWatch (i : Instr) {s t : State} (h : sameButWatch s t) : sameButWatch (effect i s) (effect i t) := by
  rw [eq_setWatch_of_setWatch_eq h]
  exact effect_setWatch i t s.wp s.watchHit

theorem afterInstr_sameButWatch (cfg : Config) (i : Instr) {s t : State} (h : sameButWatch s t) :
    sameButWatch (afterInstr cfg i s) (afterInstr cfg i t) := by
  have hfetched : sameButWatch (afterFetch i s) (afterFetch i t) := congrArg (afterFetch i) h
  rw [afterInstr, h.opcode_eq]
  exact recordStep_sameButWatch _ _ _ _ h (effect_sameButWatch i hfetched)

/-- States that agree on all but the watchpoint and its latch step to states that do. -/
theorem nextState_sameButWatch (cfg : Config) {s t : State} (h : sameButWatch s t) :
    sameButWatch (nextState cfg s) (nextState cfg t) := by
  have hf : fetchInstr cfg.opcodeMap t = fetchInstr cfg.opcodeMap s := (h.fetchInstr_eq _).symm
  have hh : t.halted = s.halted := h.halted_eq.symm
  obtain ⟨hs, ht⟩ | ⟨hs, hi, ht⟩ | ⟨i, hs, hi, ht⟩ := engineStep_cases (engineStep_eq cfg s)
  · rwa [ht, nextState_halted (hh.trans hs)]
  · rw [ht, nextState_data (hh.trans hs) (hf.trans hi)]
    exact haltedOnData_sameButWatch cfg h
  · rw [ht, nextState_instr (hh.trans hs) (hf.trans hi)]
    exact afterInstr_sameButWatch cfg i h

/-- A run keeps the agreement, step by step. -/
theorem engineRun_sameButWatch {cfg : Config} {n : Nat} {s t s' : State} (h : sameButWatch s t) (hs : engineRun cfg n s = .next s') :
    ∃ t', engineRun cfg n t = .next t' ∧ sameButWatch s' t' := by
  induction n generalizing s t with
  | zero =>
    cases hs
    exact ⟨t, rfl, h⟩
  | succ n ih =>
    rw [engineRun_succ] at hs ⊢
    exact ih (nextState_sameButWatch cfg h) hs

/-- A load keeps only the watchpoint of the state before it (decision D8). -/
theorem loadImage_sameButWatch (image : List Byte) (start : Nat) (s t : State) :
    sameButWatch (loadImage image start s) (loadImage image start t) := rfl

/-- Settles O35: the two loads agree but for the watchpoint, so the two runs do, and the trace and the output are among what agrees. -/
theorem sameImageGivesSameTraceAndOutput : Obligations.SameImageGivesSameTraceAndOutput := by
  intro cfg n image start s t s' hs
  obtain ⟨t', ht, hsame⟩ := engineRun_sameButWatch (loadImage_sameButWatch image start s t) hs
  exact ⟨t', ht, hsame.trace_eq, hsame.out_eq, hsame⟩

end Sys2Proof.Machine
end

section
/-! PROOF. A session's steps as iterates of one function, and step-backs through the snapshots they pushed (60_exceptions.md R222 to R224). -/

namespace Sys2Proof.Machine

/-- Settles O47: `restore` writes each component once, and its trace is the trim of the snapshot's with a rollback entry. -/
theorem restoreOverwritesTheSnapshotComponents : Obligations.RestoreOverwritesTheSnapshotComponents := by
  intro cap p s
  refine ⟨rfl, ?_, ?_, restore_wp cap p s, restore_watchHit cap p s, rfl⟩
  · rw [restore_trace, trimTrace_append_length]
  · rw [restore_trace]
    exact trimTrace_suffix ..

/-- What a snapshot of a restored core holds: the snapshot restored, but for the rollback entry. -/
theorem capture_restore (cap : Nat) (p : Snapshot) (s : State) :
    capture (restore cap p s) = { p with trace := trimTrace cap (p.trace ++ [.rollback]) } := rfl

/-- A restore is a "full overwrite, never a merge" (60_exceptions.md R222): nothing of an earlier restore is left. -/
theorem restore_restore (cap : Nat) (p p' : Snapshot) (s : State) : restore cap p (restore cap p' s) = restore cap p s := rfl

/-- The session that one step of a loaded session leaves. -/
def Session.stepped (cfg : Config) (q : Session) : Session := { q.pushSnapshot cfg with core := nextState cfg q.core }

@[simp] theorem Session.stepped_core (cfg : Config) (q : Session) : (q.stepped cfg).core = nextState cfg q.core := rfl
@[simp] theorem Session.stepped_loaded (cfg : Config) (q : Session) : (q.stepped cfg).loaded = q.loaded := pushSnapshot_loaded cfg q
@[simp] theorem Session.stepped_bp (cfg : Config) (q : Session) : (q.stepped cfg).bp = q.bp := pushSnapshot_bp cfg q
@[simp] theorem Session.stepped_events (cfg : Config) (q : Session) : (q.stepped cfg).events = q.events := pushSnapshot_events cfg q

theorem Session.stepped_history (cfg : Config) {q : Session} (h : q.core.halted = false) :
    (q.stepped cfg).history = (capture q.core :: q.history).take cfg.historyCap := pushSnapshot_history cfg h

theorem Session.step_eq_stepped {cfg : Config} {q : Session} (hl : q.loaded = true) : q.step cfg = .next (q.stepped cfg) :=
  Session.step_eq hl

/-- The core of a session after steps is the core after as many steps of the engine. -/
theorem stepped_iterate_core (cfg : Config) (n : Nat) (q : Session) :
    ((Session.stepped cfg)^[n] q).core = (nextState cfg)^[n] q.core :=
  Function.Semiconj.iterate_right (f := Session.core) (fun _ => rfl) n q

/-- What one step leaves of a session, every number of steps leaves. -/
theorem stepped_iterate_keeps {α : Type} {cfg : Config} {f : Session → α} (hf : ∀ q : Session, f (q.stepped cfg) = f q) (n : Nat) (q : Session) :
    f ((Session.stepped cfg)^[n] q) = f q := by
  induction n with
  | zero => rfl
  | succ n ih => rw [Function.iterate_succ_apply', hf, ih]

/-- Steps do not move the breakpoint (60_exceptions.md R235). -/
theorem stepped_iterate_bp (cfg : Config) (n : Nat) (q : Session) : ((Session.stepped cfg)^[n] q).bp = q.bp :=
  stepped_iterate_keeps (Session.stepped_bp cfg) n q

/-- Steps log no event. -/
theorem stepped_iterate_events (cfg : Config) (n : Nat) (q : Session) : ((Session.stepped cfg)^[n] q).events = q.events :=
  stepped_iterate_keeps (Session.stepped_events cfg) n q

/-- A run of the engine answers the iterate of the step. -/
theorem engineRun_eq_iterate (cfg : Config) (n : Nat) (s : State) : engineRun cfg n s = .next ((nextState cfg)^[n] s) := by
  induction n generalizing s with
  | zero => rfl
  | succ n ih => rw [engineRun_succ, ih, Function.iterate_succ_apply]

theorem engineRun_next_iff (cfg : Config) (n : Nat) (s t : State) : engineRun cfg n s = .next t ↔ t = (nextState cfg)^[n] s := by
  rw [engineRun_eq_iterate, Host.Outcome.next.injEq, eq_comm]

/-- `n` commands `step()` on a loaded session answer the iterate of the step. -/
theorem sessionSteps_eq_iterate (cfg : Config) (n : Nat) {q : Session} (hl : q.loaded = true) :
    sessionSteps cfg n q = .next ((Session.stepped cfg)^[n] q) := by
  induction n generalizing q with
  | zero => rfl
  | succ n ih =>
    rw [Function.iterate_succ_apply, ← ih (q := q.stepped cfg) ((q.stepped_loaded cfg).trans hl)]
    simp only [sessionSteps, List.replicate_succ, hostCommands, hostCommand, Session.step_eq_stepped hl]

/-- The snapshots of the states before each of `n` steps, oldest first. -/
def stepSnapshots (cfg : Config) (n : Nat) (s : State) : List Snapshot :=
  (List.range n).map fun k => capture ((nextState cfg)^[k] s)

theorem stepSnapshots_length (cfg : Config) (n : Nat) (s : State) : (stepSnapshots cfg n s).length = n := by
  simp [stepSnapshots]

theorem stepSnapshots_getElem? (cfg : Config) {n k : Nat} (s : State) (hk : k < n) :
    (stepSnapshots cfg n s)[k]? = some (capture ((nextState cfg)^[k] s)) := by
  simp [stepSnapshots, hk]

/-- The newest of the snapshots is of the state before the last step. -/
theorem stepSnapshots_succ (cfg : Config) (n : Nat) (s : State) :
    stepSnapshots cfg (n + 1) s = stepSnapshots cfg n s ++ [capture ((nextState cfg)^[n] s)] := by
  simp [stepSnapshots, List.range_succ]

/-- The oldest of the snapshots is of the state before the first step. -/
theorem stepSnapshots_succ' (cfg : Config) (n : Nat) (s : State) :
    stepSnapshots cfg (n + 1) s = capture s :: stepSnapshots cfg n (nextState cfg s) := by
  simp [stepSnapshots, List.range_succ_eq_map, Function.comp_def]

/-- A push onto a stack already cut to its capacity is cut as a push onto the whole. -/
theorem take_cons_take {α : Type} (cap : Nat) (x : α) (l : List α) : (x :: l.take cap).take cap = (x :: l).take cap := by
  cases cap with
  | zero => rfl
  | succ c => rw [List.take_succ_cons, List.take_succ_cons, List.take_take, Nat.min_eq_left (Nat.le_succ c)]

/-- Steps that all begin running push the snapshot of the state before each of them, within the capacity (60_exceptions.md R223). -/
theorem stepped_iterate_history (cfg : Config) {n : Nat} (hn : 0 < n) {q : Session}
    (hrun : ∀ k, k < n → ((nextState cfg)^[k] q.core).halted = false) :
    ((Session.stepped cfg)^[n] q).history = ((stepSnapshots cfg n q.core).reverse ++ q.history).take cfg.historyCap := by
  induction n, hn using Nat.le_induction with
  | base => exact Session.stepped_history cfg (hrun 0 Nat.one_pos)
  | succ n hn ih =>
    have hlast : ((Session.stepped cfg)^[n] q).core.halted = false := by
      rw [stepped_iterate_core]
      exact hrun n n.lt_succ_self
    rw [Function.iterate_succ_apply', Session.stepped_history cfg hlast, ih fun k hk => hrun k (Nat.lt_succ_of_lt hk), take_cons_take,
      stepped_iterate_core, stepSnapshots_succ, List.reverse_append, List.reverse_singleton, List.singleton_append, List.cons_append]

/-- A step-back from a history that is not empty restores the newest snapshot (60_exceptions.md R223). -/
theorem Session.stepBack_cons (cfg : Config) {q : Session} {p : Snapshot} {rest : List Snapshot} (hh : q.history = p :: rest) :
    q.stepBack cfg = ({ q with core := restore cfg.traceCap p q.core, history := rest }, .available true) := by
  rw [Session.stepBack, hh]

theorem sessionStepBacks_succ (cfg : Config) (n : Nat) (q : Session) :
    sessionStepBacks cfg (n + 1) q = sessionStepBacks cfg n (q.stepBack cfg).1 := rfl

/-- Step-backs past newer snapshots to one leave its restore, as if from the core they began with, and the snapshots older than it. -/
theorem sessionStepBacks_to (cfg : Config) (newer : List Snapshot) (p : Snapshot) (older : List Snapshot) {q : Session}
    (hh : q.history = newer ++ p :: older) :
    ∃ u, sessionStepBacks cfg (newer.length + 1) q = .next u ∧ u.core = restore cfg.traceCap p q.core ∧ u.history = older := by
  induction newer generalizing q with
  | nil =>
    rw [List.length_nil, sessionStepBacks_succ, Session.stepBack_cons cfg hh]
    exact ⟨_, rfl, rfl, rfl⟩
  | cons p' newer ih =>
    rw [List.length_cons, sessionStepBacks_succ, Session.stepBack_cons cfg hh]
    obtain ⟨u, hu, hcore, holder⟩ := ih (q := { q with core := restore cfg.traceCap p' q.core, history := newer ++ p :: older }) rfl
    exact ⟨u, hu, hcore.trans (restore_restore ..), holder⟩

/-- Settles O48: the steps push one snapshot each, and the last step-back restores the oldest of them, which is of the state before the first step. -/
theorem stepBacksUndoStepsExactly : Obligations.StepBacksUndoStepsExactly := by
  intro cfg n q r hl hn hcap hr hrun
  have hrunning : ∀ k, k < n → ((nextState cfg)^[k] q.core).halted = false := fun k hk => by
    rw [← stepped_iterate_core]
    exact hrun k _ hk (sessionSteps_eq_iterate cfg k hl)
  rw [sessionSteps_eq_iterate cfg n hl] at hr
  cases hr
  obtain ⟨m, rfl⟩ := Nat.exists_eq_add_of_le' hn
  have hhistory : ((Session.stepped cfg)^[m + 1] q).history =
      (stepSnapshots cfg m (nextState cfg q.core)).reverse ++ capture q.core :: q.history.take (cfg.historyCap - (m + 1)) := by
    have hlen : (stepSnapshots cfg (m + 1) q.core).reverse.length = m + 1 := by rw [List.length_reverse, stepSnapshots_length]
    rw [stepped_iterate_history cfg hn hrunning, List.take_append, List.take_of_length_le (hlen.trans_le hcap), hlen,
      stepSnapshots_succ', List.reverse_cons, List.append_assoc, List.singleton_append]
  obtain ⟨u, hu, hcore, holder⟩ := sessionStepBacks_to cfg _ _ _ hhistory
  rw [List.length_reverse, stepSnapshots_length] at hu
  exact ⟨u, hu, (congrArg capture hcore).trans (capture_restore ..), by rw [hcore, restore_wp], by rw [hcore, restore_watchHit], holder⟩

end Sys2Proof.Machine
end

section
/-! PROOF. `stepOnce` and the run loop's batch (60_exceptions.md R228, R229): a batch is steps that pass quietly, and then one of four ends. -/

namespace Sys2Proof.Machine

@[simp] theorem reportWatch_bp (q : Session) : q.reportWatch.bp = q.bp := by
  unfold Session.reportWatch; split <;> rfl
@[simp] theorem reportWatch_history (q : Session) : q.reportWatch.history = q.history := by
  unfold Session.reportWatch; split <;> rfl

/-- A report logs the hit, where there is one, with the address last written (60_exceptions.md R228). -/
theorem reportWatch_events (q : Session) :
    q.reportWatch.events = if q.core.watchHit = true then q.events ++ [.watch q.core.lastWrite] else q.events := by
  unfold Session.reportWatch; split <;> rfl

/-- `stepOnce` is a step and the report of its hit, whatever the breakpoint (60_exceptions.md R229). -/
theorem Session.stepOnce_eq {cfg : Config} {q : Session} (hl : q.loaded = true) :
    q.stepOnce cfg = .next ((q.stepped cfg).reportWatch, .stepped (q.stepped cfg).core.watchHit) := by
  rw [Session.stepOnce, Session.step_eq_stepped hl]

/-- Settles O50: each component of the session by what a step and what a report leaves of it. -/
theorem stepOncePassesTheBreakpoint : Obligations.StepOncePassesTheBreakpoint := by
  intro cfg q b hl
  refine ⟨_, nextState cfg q.core, engineStep_eq cfg q.core, Session.stepOnce_eq (q := { q with bp := b }) hl, ?_, ?_, ?_, fun hs => ?_⟩
  · rw [reportWatch_core_eq, Session.stepped_core]
  · rw [reportWatch_bp, Session.stepped_bp]
  · rw [reportWatch_events, Session.stepped_core, Session.stepped_events]
  · rw [reportWatch_history]
    exact Session.stepped_history cfg hs

@[simp] theorem afterBatch_history (cfg : Config) (q : Session) (stop : Option BatchStop) : (q.afterBatch cfg stop).history = q.history := by
  unfold Session.afterBatch; split <;> rfl

/-- A batch goes on from a session where its next step stands before no breakpoint and leaves neither a hit nor a halt (60_exceptions.md R228). -/
def Session.passes (cfg : Config) (q : Session) : Prop :=
  q.bp ≠ some q.core.pc ∧ (nextState cfg q.core).watchHit = false ∧ (nextState cfg q.core).halted = false

/-- The batch goes on at each of `n` steps. -/
def Session.passesSteps (cfg : Config) (n : Nat) (q : Session) : Prop := ∀ k < n, ((Session.stepped cfg)^[k] q).passes cfg

theorem Session.passesSteps.cons {cfg : Config} {n : Nat} {q : Session} (hq : q.passes cfg) (h : (q.stepped cfg).passesSteps cfg n) :
    q.passesSteps cfg (n + 1) := by
  intro k hk
  cases k with
  | zero => exact hq
  | succ k => exact h k (Nat.lt_of_succ_lt_succ hk)

/-- How a batch of at most `m` steps ends: after how many steps, with what session, and for what reason. -/
inductive BatchEnd (cfg : Config) (m : Nat) (q : Session) : Nat → Session → Option BatchStop → Prop where
  /-- All the steps ran. -/
  | ran (hpass : q.passesSteps cfg m) : BatchEnd cfg m q m ((Session.stepped cfg)^[m] q) none
  /-- `PC` came to the breakpoint, before a step. -/
  | breakpoint {n : Nat} {r : Session} (hn : n < m) (hpass : q.passesSteps cfg n) (hr : r = (Session.stepped cfg)^[n] q)
      (hbp : r.bp = some r.core.pc) :
      BatchEnd cfg m q n { r with events := r.events ++ [.breakAt r.core.pc] } (some .breakpoint)
  /-- A step left a watch-hit, tested before the halt (R202). -/
  | watchHit {n : Nat} {r : Session} (hn : n < m) (hpass : q.passesSteps cfg n)
      (hbp : ((Session.stepped cfg)^[n] q).bp ≠ some ((Session.stepped cfg)^[n] q).core.pc)
      (hr : r = (Session.stepped cfg)^[n + 1] q) (hw : r.core.watchHit = true) :
      BatchEnd cfg m q (n + 1) r.reportWatch (some .watchHit)
  /-- A step left the core halted, and no watch-hit. -/
  | halted {n : Nat} {r : Session} (hn : n < m) (hpass : q.passesSteps cfg n)
      (hbp : ((Session.stepped cfg)^[n] q).bp ≠ some ((Session.stepped cfg)^[n] q).core.pc)
      (hr : r = (Session.stepped cfg)^[n + 1] q) (hw : r.core.watchHit = false) (hh : r.core.halted = true) :
      BatchEnd cfg m q (n + 1) r (some .halted)

/-- A batch that goes on past its first step ends as the rest of it does. -/
theorem BatchEnd.cons {cfg : Config} {m n : Nat} {q r : Session} {why : Option BatchStop} (hq : q.passes cfg)
    (h : BatchEnd cfg m (q.stepped cfg) n r why) : BatchEnd cfg (m + 1) q (n + 1) r why := by
  cases h with
  | ran hpass => exact .ran (.cons hq hpass)
  | breakpoint hn hpass hr hbp => exact .breakpoint (Nat.succ_lt_succ hn) (.cons hq hpass) hr hbp
  | watchHit hn hpass hbp hr hw => exact .watchHit (Nat.succ_lt_succ hn) (.cons hq hpass) hbp hr hw
  | halted hn hpass hbp hr hw hh => exact .halted (Nat.succ_lt_succ hn) (.cons hq hpass) hbp hr hw hh

/-- No step is none that must pass. -/
theorem Session.passesSteps_zero (cfg : Config) (q : Session) : q.passesSteps cfg 0 := fun _ hk => absurd hk (Nat.not_lt_zero _)

/-- The run loop answers one of the four ends. -/
theorem batchSteps_end (cfg : Config) (m : Nat) {q : Session} (hl : q.loaded = true) :
    ∃ n r why, batchSteps cfg m q = .next (r, why) ∧ BatchEnd cfg m q n r why := by
  induction m generalizing q with
  | zero => exact ⟨0, q, none, rfl, .ran (q.passesSteps_zero cfg)⟩
  | succ m ih =>
    rw [batchSteps, Session.step_eq_stepped hl]
    dsimp only
    split_ifs with hbp hw hh
    · exact ⟨0, _, _, rfl, .breakpoint m.succ_pos (q.passesSteps_zero cfg) rfl hbp⟩
    · exact ⟨1, _, _, rfl, .watchHit m.succ_pos (q.passesSteps_zero cfg) hbp rfl hw⟩
    · exact ⟨1, _, _, rfl, .halted m.succ_pos (q.passesSteps_zero cfg) hbp rfl (Bool.eq_false_of_not_eq_true hw) hh⟩
    · obtain ⟨n, r, why, hrest, hend⟩ := ih ((q.stepped_loaded cfg).trans hl)
      exact ⟨n + 1, r, why, hrest,
        hend.cons ⟨hbp, Bool.eq_false_of_not_eq_true hw, Bool.eq_false_of_not_eq_true hh⟩⟩

/-- A batch of a loaded session answers the end of its run loop, with what the host does to the cadence (U9). -/
theorem runBatch_end (cfg : Config) {q : Session} (hl : q.loaded = true) :
    ∃ n r why, q.runBatch cfg = .next (r.afterBatch cfg why, .batch why) ∧ BatchEnd cfg cfg.batchSteps q n r why := by
  obtain ⟨n, r, why, hsteps, hend⟩ := batchSteps_end cfg cfg.batchSteps hl
  refine ⟨n, r, why, ?_, hend⟩
  rw [Session.runBatch, if_pos hl, hsteps]

/-- No step that passed began at the breakpoint. -/
theorem Session.passesSteps.bp_ne {cfg : Config} {n k : Nat} {q : Session} (h : q.passesSteps cfg n) (hk : k < n) :
    q.bp ≠ some ((nextState cfg)^[k] q.core).pc := by
  obtain ⟨hbp, -⟩ := h k hk
  rwa [stepped_iterate_bp, stepped_iterate_core] at hbp

/-- A step that passed left neither a hit nor a halt. -/
theorem Session.passesSteps.quiet {cfg : Config} {n k : Nat} {q : Session} (h : q.passesSteps cfg n) (hpos : 0 < k) (hk : k ≤ n) :
    ((nextState cfg)^[k] q.core).watchHit = false ∧ ((nextState cfg)^[k] q.core).halted = false := by
  obtain ⟨j, rfl⟩ := Nat.exists_eq_add_of_le' hpos
  obtain ⟨-, hquiet⟩ := h j hk
  rwa [stepped_iterate_core, ← Function.iterate_succ_apply' (nextState cfg)] at hquiet

/-- Where the step after those that passed does not begin at the breakpoint either, no step up to it does. -/
theorem Session.passesSteps.bp_ne_of_next {cfg : Config} {n k : Nat} {q : Session} (h : q.passesSteps cfg n)
    (hbp : ((Session.stepped cfg)^[n] q).bp ≠ some ((Session.stepped cfg)^[n] q).core.pc) (hk : k < n + 1) :
    q.bp ≠ some ((nextState cfg)^[k] q.core).pc := by
  obtain hlt | rfl := Nat.lt_succ_iff_lt_or_eq.1 hk
  · exact h.bp_ne hlt
  · rwa [stepped_iterate_bp, stepped_iterate_core] at hbp

theorem BatchEnd.le {cfg : Config} {m n : Nat} {q r : Session} {why : Option BatchStop} (h : BatchEnd cfg m q n r why) : n ≤ m := by
  cases h with
  | ran => exact Nat.le_refl m
  | breakpoint hn => exact Nat.le_of_lt hn
  | watchHit hn | halted hn => exact hn

/-- Before each of a batch's steps `PC` is not at the breakpoint, and no earlier step has left a hit or a halt. -/
theorem BatchEnd.before {cfg : Config} {m n k : Nat} {q r : Session} {why : Option BatchStop} (h : BatchEnd cfg m q n r why) (hk : k < n) :
    q.bp ≠ some ((nextState cfg)^[k] q.core).pc ∧
      (0 < k → ((nextState cfg)^[k] q.core).watchHit = false ∧ ((nextState cfg)^[k] q.core).halted = false) := by
  cases h with
  | ran hpass | breakpoint _ hpass => exact ⟨hpass.bp_ne hk, fun hpos => hpass.quiet hpos (Nat.le_of_lt hk)⟩
  | watchHit _ hpass hbp | halted _ hpass hbp =>
    exact ⟨hpass.bp_ne_of_next hbp hk, fun hpos => hpass.quiet hpos (Nat.le_of_lt_succ hk)⟩

/-- The end of a batch leaves the history as its steps left it. -/
theorem BatchEnd.history_eq {cfg : Config} {m n : Nat} {q r : Session} {why : Option BatchStop} (h : BatchEnd cfg m q n r why) :
    r.history = ((Session.stepped cfg)^[n] q).history := by
  cases h with
  | ran => rfl
  | breakpoint _ _ hr | halted _ _ _ hr => rw [hr]
  | watchHit _ _ _ hr => rw [reportWatch_history, hr]

/-- From a running core every step of a batch is an executing one, so each pushes its snapshot. -/
theorem BatchEnd.history_of_running {cfg : Config} {m n : Nat} {q r : Session} {why : Option BatchStop} (h : BatchEnd cfg m q n r why)
    (hn : 0 < n) (hq : q.core.halted = false) :
    r.history = ((stepSnapshots cfg n q.core).reverse ++ q.history).take cfg.historyCap := by
  rw [h.history_eq, stepped_iterate_history cfg hn]
  intro k hk
  cases k with
  | zero => exact hq
  | succ k =>
    obtain ⟨-, hquiet⟩ := h.before hk
    exact (hquiet k.succ_pos).2

/-- Settles O49: the clauses on all steps hold whatever the end, and each reason is that of one end. -/
theorem batchRunsStepsUntilAStop : Obligations.BatchRunsStepsUntilAStop := by
  intro cfg q hl
  obtain ⟨n, r, why, hbatch, hend⟩ := runBatch_end cfg hl
  refine ⟨_, why, n, _, hbatch, hend.le, engineRun_eq_iterate cfg n q.core, fun k u hk hu => ?_, fun hn => ?_, fun hn hq => ?_, ?_⟩
  · rw [(engineRun_next_iff ..).1 hu]
    exact hend.before hk
  · rw [afterBatch_history, hend.history_eq, hn, Function.iterate_zero_apply]
  · refine ⟨stepSnapshots cfg n q.core, stepSnapshots_length .., ?_, fun k u hk hu => ?_⟩
    · rw [afterBatch_history, hend.history_of_running hn hq]
    · rw [(engineRun_next_iff ..).1 hu, stepSnapshots_getElem? cfg q.core hk]
  · rw [afterBatch_core, afterBatch_events]
    cases hend with
    | ran hpass =>
      exact ⟨rfl, stepped_iterate_core .., stepped_iterate_events .., fun hpos => hpass.quiet hpos (Nat.le_refl _)⟩
    | breakpoint hn hpass hr hbp =>
      rw [hr, stepped_iterate_bp, stepped_iterate_core] at hbp
      rw [hr, stepped_iterate_core, stepped_iterate_events]
      exact ⟨hbp, hn, rfl, rfl, fun hpos => hpass.quiet hpos (Nat.le_refl n)⟩
    | @watchHit n r hn hpass _ hr hw =>
      rw [reportWatch_core_eq, reportWatch_events, if_pos hw]
      rw [hr, stepped_iterate_core] at hw
      rw [hr, stepped_iterate_core, stepped_iterate_events]
      exact ⟨n.succ_pos, hw, rfl, rfl⟩
    | @halted n r hn hpass _ hr hw hh =>
      rw [hr, stepped_iterate_core] at hw hh
      rw [hr, stepped_iterate_core, stepped_iterate_events]
      exact ⟨n.succ_pos, hw, hh, rfl, rfl⟩

end Sys2Proof.Machine
end

section
/-! PROOF. The host's edits, each an equation of its command (60_exceptions.md R225, R226, R235, decision D18). -/

namespace Sys2Proof.Machine

/-- A text that is the number of a byte writes one cell (60_exceptions.md R225). -/
theorem Session.setMemoryByte_of_byte {text : List Char} {v : Nat} (hp : parseNumber text = some v) (hv : v < 256) (q : Session)
    (addr : Nat) :
    q.setMemoryByte addr text = ({ q with core := q.core.store (wrapAddr addr) (wrapAddr v) }, .accepted true) := by
  rw [Session.setMemoryByte, hp]
  exact if_pos hv

/-- A text that is a larger number is rejected. -/
theorem Session.setMemoryByte_of_large {text : List Char} {v : Nat} (hp : parseNumber text = some v) (hv : 256 ≤ v) (q : Session)
    (addr : Nat) : q.setMemoryByte addr text = (q, .accepted false) := by
  rw [Session.setMemoryByte, hp]
  exact if_neg (Nat.not_lt.2 hv)

/-- A text that is no number is rejected. -/
theorem Session.setMemoryByte_of_none {text : List Char} (hp : parseNumber text = none) (q : Session) (addr : Nat) :
    q.setMemoryByte addr text = (q, .accepted false) := by
  rw [Session.setMemoryByte, hp]

/-- The text of a number sets an address, mod 256: it is not the empty text, which is no number. -/
theorem parseOptAddr_of_number {text : List Char} {v : Nat} (hp : parseNumber text = some v) :
    parseOptAddr (some text) = some (some (wrapAddr v)) := by
  cases text with
  | nil => cases hp
  | cons c rest => rw [parseOptAddr, hp]

/-- A text that is no number, and not the empty text that clears, is rejected. -/
theorem parseOptAddr_of_none {text : List Char} (hp : parseNumber text = none) (hne : text ≠ []) : parseOptAddr (some text) = none := by
  cases text with
  | nil => exact absurd rfl hne
  | cons c rest => rw [parseOptAddr, hp]

/-- A text that sets or clears an address does so in `WP` (60_exceptions.md R226). -/
theorem hostCommand_setWatchpoint_some (cfg : Config) {text : Option (List Char)} {w : Option Byte} (h : parseOptAddr text = some w)
    (q : Session) : hostCommand cfg (.setWatchpoint text) q = .next ({ q with core := { q.core with wp := w } }, .accepted true) := by
  rw [hostCommand, Session.setWatchpoint, h]
  rfl

theorem hostCommand_setWatchpoint_none (cfg : Config) {text : Option (List Char)} (h : parseOptAddr text = none) (q : Session) :
    hostCommand cfg (.setWatchpoint text) q = .next (q, .accepted false) := by
  rw [hostCommand, Session.setWatchpoint, h]

/-- A text that sets or clears an address does so in `BP` (60_exceptions.md R235). -/
theorem hostCommand_setBreakpoint_some (cfg : Config) {text : Option (List Char)} {b : Option Byte} (h : parseOptAddr text = some b)
    (q : Session) : hostCommand cfg (.setBreakpoint text) q = .next ({ q with bp := b }, .accepted true) := by
  rw [hostCommand, Session.setBreakpoint, h]

theorem hostCommand_setBreakpoint_none (cfg : Config) {text : Option (List Char)} (h : parseOptAddr text = none) (q : Session) :
    hostCommand cfg (.setBreakpoint text) q = .next (q, .accepted false) := by
  rw [hostCommand, Session.setBreakpoint, h]

/-- Settles O51: each clause is the equation of its command for its kind of text. -/
theorem hostEditsWriteOneThing : Obligations.HostEditsWriteOneThing := by
  intro cfg q text addr hm
  refine ⟨fun v hp hv => ⟨_, congrArg _ (Session.setMemoryByte_of_byte hp hv q addr), rfl, fun x => ?_⟩,
    fun v hp hv => congrArg _ (Session.setMemoryByte_of_large hp hv q addr),
    fun v hp => ⟨hostCommand_setWatchpoint_some cfg (parseOptAddr_of_number hp) q,
      hostCommand_setBreakpoint_some cfg (parseOptAddr_of_number hp) q⟩,
    fun hp => ⟨congrArg _ (Session.setMemoryByte_of_none hp q addr), fun hne =>
      ⟨hostCommand_setWatchpoint_none cfg (parseOptAddr_of_none hp hne) q,
        hostCommand_setBreakpoint_none cfg (parseOptAddr_of_none hp hne) q⟩⟩,
    hostCommand_setWatchpoint_some cfg rfl q, hostCommand_setWatchpoint_some cfg rfl q,
    hostCommand_setBreakpoint_some cfg rfl q, hostCommand_setBreakpoint_some cfg rfl q⟩
  rw [State.store_mem, Memory.read_write hm, wrapAddr, wrapAddr]
  simp only [eq_comm (a := x)]

end Sys2Proof.Machine
end

section
/-! PROOF. `reset()` (60_exceptions.md R236): no load touches the image last assembled, and the last one leaves its start (decision D27). -/

namespace Sys2Proof.Machine

/-- A sequence of commands goes on from what its first answers. -/
theorem hostCommands_cons {cfg : Config} {cmd : Command} {q r : Session} {rep : Report} (h : hostCommand cfg cmd q = .next (r, rep))
    (rest : List Command) : hostCommands cfg (cmd :: rest) q = hostCommands cfg rest r := by
  rw [hostCommands, h]

/-- Loads leave the image last assembled and the breakpoint, and the start of the last of them. -/
theorem hostCommands_loads (cfg : Config) (others : List (List Byte × Option Nat)) (last : List Byte) (start : Option Nat) (q : Session) :
    ∃ u, hostCommands cfg ((others.map fun x => .load x.1 x.2) ++ [.load last start]) q = .next u ∧
      u.program = q.program ∧ u.bp = q.bp ∧ u.start = startAddress start := by
  induction others generalizing q with
  | nil => exact ⟨_, hostCommands_cons (hostCommand_load cfg last start q) [], rfl, rfl, rfl⟩
  | cons x others ih =>
    rw [List.map_cons, List.cons_append, hostCommands_cons (hostCommand_load cfg x.1 x.2 q)]
    exact ih _

/-- `reset()` loads the image last assembled, with the start of the last load (decision D27). -/
theorem hostCommand_reset (cfg : Config) {q : Session} {image : List Byte} (h : q.program = some image) :
    hostCommand cfg .reset q = .next (q.load image q.start, .done) := by
  rw [hostCommand, Session.reset, h]

/-- Where no image has been assembled there is none to reload (log entry 19). -/
theorem hostCommand_reset_refused (cfg : Config) {q : Session} (h : q.program = none) :
    hostCommand cfg .reset q = .refused .noAssembledImage := by
  rw [hostCommand, Session.reset, h]

/-- Settles O59: the loads leave the image assembled and the last start, which `reset()` loads from. -/
theorem resetReloadsTheLastAssembledImage : Obligations.ResetReloadsTheLastAssembledImage := by
  refine ⟨fun cfg q src image others last start hsrc => ?_, fun cfg q => hostCommand_reset_refused cfg⟩
  obtain ⟨u, hu, hprogram, hbp, hstart⟩ := hostCommands_loads cfg others last start { q with program := some image }
  have hassemble : hostCommand cfg (.assemble src) q = .next ({ q with program := some image }, .assembled image) :=
    congrArg _ (Session.assemble_ok hsrc q)
  refine ⟨u, _, (hostCommands_cons hassemble _).trans hu, hostCommand_reset cfg hprogram, ?_, rfl, rfl, hprogram, ?_, hbp⟩
  · rw [Session.load_core, hstart]
  · rw [Session.load_start, hstart]

end Sys2Proof.Machine
end
